-- ==== Sys2Proof/Word.lean ====
section
/-! DEFINITION. The words of the unit and the named operand values an operation word can spell (00_scope.md R11 to
R13, 10_state.md R27, R33, 30_encoding.md R64). Nothing here has a meaning yet: meanings stand under Machine/. -/

namespace Sys2Proof

/-- One operation word, 64 bits, bit 0 least significant (R12, R61). -/
abbrev Word := BitVec 64

/-- A u32 value: a timestamp or a measured width in microseconds (R11, R17). -/
abbrev U32 := BitVec 32

/-- An s32 value: 32 bits read as two's complement with `BitVec.toInt` (R12, R65). -/
abbrev S32 := BitVec 32

/-- A byte: one colour component, or the LED pattern (R11). -/
abbrev Byte := BitVec 8

/-- The two PWM output channels: 0 throttle, 1 steering; no other number exists (R27). -/
inductive PwmChannel where
  | throttle
  | steering
deriving DecidableEq, Repr, Inhabited

/-- The seven status codes (R33); the number 7 is reserved and no constructor stands for it (R30). -/
inductive Status where
  | disconnected
  | rxError
  | calibrating
  | hostInit
  | hostUserMode
  | hostLocalMode
  | hostDisarmed
deriving DecidableEq, Repr, Inhabited

/-- The five monitored input channels (R16, R19), in the spec's order. -/
inductive InputChannel where
  | throttleIn
  | steeringIn
  | ch5In
  | ch6In
  | speedometerIn
deriving DecidableEq, Repr, Inhabited

/-- Why a word spells no operation, in the order the decoder checks (R66, R75, R150). -/
inductive IllegalReason where
  | reservedOpcode
  | reservedBits
  | badSelector
deriving DecidableEq, Repr, Inhabited

end Sys2Proof
end

