-- ==== Sys2Proof/Config.lean ====
section
/-! DEFINITION. What is fixed for one unit (the parameters of 00_scope.md R10), the agents that issue operations (R7),
and the free values: the draws of R14 and the operations the environment issues (R55). A parameter the spec leaves OPEN
has no value here that a proof can see: it is a constant without a body. -/

namespace Sys2Proof

/-- CLEAR_ALL_MODE and LED_DESC_MODE: one atomic step, or one micro-step per field (R10, R88, R114). -/
inductive SplitMode where
  | atomic
  | perField
deriving DecidableEq, Repr, Inhabited

/-- LED_BIT_ORDER: which pattern bit drives time slot 0 (R10, R115). -/
inductive BitOrder where
  | msbFirst
  | lsbFirst
deriving DecidableEq, Repr, Inhabited

/-- TELEM_CLEAR: how the host's telemetry duty clears (R10, R143). -/
inductive TelemClear where
  | rdclr
  | readThenClrall
deriving DecidableEq, Repr, Inhabited

/-- The agents of R7. Any of them may step at any time. -/
inductive Agent where
  /-- LINE(l): the electrical transitions of input line l. -/
  | line (l : Nat)
  /-- CLOCK: time passing. -/
  | clock
  /-- PWMSEQ(c): the ends of channel c's output periods. -/
  | pwmSeq (c : PwmChannel)
  /-- LEDTIMER: the LED time slots. -/
  | ledTimer
  /-- HOST: the controller's software. -/
  | host
deriving DecidableEq, Repr, Inhabited

/-- What the environment can do next in the one total order of R55. -/
inductive Event where
  /-- Agent `a` issues the operation word `w` (R6, R8: the word means the same whoever issues it). -/
  | op (a : Agent) (w : Word)
  /-- Agent `a` takes the next micro-step of a split operation it has in progress (R88, R114). -/
  | micro (a : Agent)
  /-- The external reset (R167). -/
  | reset
deriving DecidableEq, Repr, Inhabited

/-- The parameters of R10, the model's arguments. A state carries them and no step changes them. TB_RESET is not among
them: it is drawn afresh at every reset (R167). NUM_LEDS = 1 and NUM_PWM_OUT = 2 are settled and so are types. -/
structure Config where
  /-- MAX_CHANNELS: the number of capture records, 5 to 256. -/
  maxChannels : Nat
  /-- LINE_OF: the line ids of throttle-in, steering-in, ch5-in, ch6-in, speedometer-in, in that order. -/
  lines : List Nat
  /-- CLEAR_ALL_MODE (R87, R88). -/
  clearAllMode : SplitMode
  /-- PWM_PERIOD_US (R102, R103). -/
  pwmPeriodUs : Nat
  /-- LED_BIT_ORDER (R115). -/
  ledBitOrder : BitOrder
  /-- LED_DESC_MODE (R112, R114). -/
  ledDescMode : SplitMode
  /-- LED_SLOT_US, used by no rule (R123): the model orders ticks only. -/
  ledSlotUs : Nat
  /-- CMD_PERIOD_US, a cadence no rule of the unit depends on (R130, R186). -/
  cmdPeriodUs : Nat
  /-- TELEM_PERIOD_US, a cadence no rule of the unit depends on (R139, R186). -/
  telemPeriodUs : Nat
  /-- TELEM_TS_MOD: the modulus of the host's telemetry timestamp (R147). -/
  telemTsMod : Nat
  /-- TELEM_CLEAR (R143). -/
  telemClear : TelemClear
  /-- HOST_LINE_MAX: the host's line buffer in bytes (R137). -/
  hostLineMax : Nat
  /-- BAUD, used by no rule (R10). -/
  baud : Nat
deriving DecidableEq, Repr, Inhabited

/-- The parameters lie in R10's column of legal values. -/
abbrev Config.Legal (c : Config) : Prop :=
  5 ≤ c.maxChannels ∧ c.maxChannels ≤ 256 ∧
  c.lines.length = 5 ∧ c.lines.Nodup ∧ (∀ l ∈ c.lines, l < c.maxChannels) ∧
  1 ≤ c.pwmPeriodUs ∧ 1 ≤ c.ledSlotUs ∧ 1 ≤ c.cmdPeriodUs ∧ 1 ≤ c.telemPeriodUs ∧
  1 ≤ c.telemTsMod ∧ 1 ≤ c.hostLineMax

/-- R10's column "default for vectors": this spec's choice for 95_test_vectors.md, and no property of the hardware.
LED_SLOT_US and BAUD have none there. DESIGN CHOICE, safe: log entry 21. -/
def Config.vectors : Config where
  maxChannels := 8
  lines := [0, 1, 2, 3, 4]
  clearAllMode := .atomic
  pwmPeriodUs := 20000
  ledBitOrder := .msbFirst
  ledDescMode := .atomic
  ledSlotUs := 1
  cmdPeriodUs := 10000
  telemPeriodUs := 30000
  telemTsMod := 4294967296
  telemClear := .rdclr
  hostLineMax := 64
  baud := 115200

/-! The free values. Each is a constant without a body: nothing can be proved of its value. -/

/-- The draws of R14: the n-th value the environment chooses freely. A rule that draws reads it at the state's counter
`draws` and advances the counter, and narrows it to the type or bound the rule gives. -/
opaque Config.draw : Nat → Nat

/-- What the environment does next when nothing has been handed to the model: any agent, any word (R8, R55, R129). -/
opaque Config.issue : Nat → Event

/-- MAX_CHANNELS - 5 of the unit that `State.reset` describes: 0 to 251, so MAX_CHANNELS is 5 to 256 (R10, D4). -/
opaque Config.unitExtraChannels : Fin 252

/-- The choices behind LINE_OF of that unit (R10, D5). -/
opaque Config.unitLineChoice : Nat → Nat

/-- CLEAR_ALL_MODE of that unit (R10, D10). -/
opaque Config.unitClearAllMode : SplitMode

/-- PWM_PERIOD_US - 1 of that unit (R10, D13). -/
opaque Config.unitPwmPeriodLess1 : Nat

/-- LED_BIT_ORDER of that unit (R10, D16). -/
opaque Config.unitLedBitOrder : BitOrder

/-- LED_DESC_MODE of that unit (R10, D21). -/
opaque Config.unitLedDescMode : SplitMode

/-- LED_SLOT_US - 1 of that unit (R10, D22). -/
opaque Config.unitLedSlotLess1 : Nat

/-- CMD_PERIOD_US - 1 of that unit's host (R10, D33). -/
opaque Config.unitCmdPeriodLess1 : Nat

/-- TELEM_PERIOD_US - 1 of that unit's host (R10, D33). -/
opaque Config.unitTelemPeriodLess1 : Nat

/-- TELEM_TS_MOD - 1 of that unit's host (R10, D33). -/
opaque Config.unitTelemTsModLess1 : Nat

/-- TELEM_CLEAR of that unit's host (R10, D31). -/
opaque Config.unitTelemClear : TelemClear

/-- HOST_LINE_MAX - 1 of that unit's host (R10, D33). -/
opaque Config.unitHostLineMaxLess1 : Nat

/-- BAUD of that unit's host (R10, D33). -/
opaque Config.unitBaud : Nat

end Sys2Proof
end

