-- ==== Sys2Proof/Machine/Parameters.lean ====
section
/-! DEFINITION. The parameters (00_scope.md R10) of the unit that `State.reset` and `decodeTableWord` describe: each
OPEN parameter is a free constant of Config.lean, narrowed to its legal values. Every claim about all states holds for
every legal `Config`, since a state carries its own. -/

namespace Sys2Proof.Machine

/-- `k` different members of `avail`, the choices taken from `choice`: R10 admits any injective map. -/
def pickLines (choice : Nat → Nat) : Nat → List Nat → List Nat
  | 0, _ => []
  | k + 1, avail =>
    avail.getD (choice k % avail.length) 0 ::
      pickLines choice k (avail.eraseIdx (choice k % avail.length))

/-- The parameters of the unit after reset (R10), open wherever the spec leaves them open. -/
def unitConfig : Config where
  maxChannels := Config.unitExtraChannels.val + 5
  lines := pickLines Config.unitLineChoice 5 (List.range (Config.unitExtraChannels.val + 5))
  clearAllMode := Config.unitClearAllMode
  pwmPeriodUs := Config.unitPwmPeriodLess1 + 1
  ledBitOrder := Config.unitLedBitOrder
  ledDescMode := Config.unitLedDescMode
  ledSlotUs := Config.unitLedSlotLess1 + 1
  cmdPeriodUs := Config.unitCmdPeriodLess1 + 1
  telemPeriodUs := Config.unitTelemPeriodLess1 + 1
  telemTsMod := Config.unitTelemTsModLess1 + 1
  telemClear := Config.unitTelemClear
  hostLineMax := Config.unitHostLineMaxLess1 + 1
  baud := Config.unitBaud

/-- The position of a monitored channel in LINE_OF. -/
def channelIndex : InputChannel → Nat
  | .throttleIn => 0
  | .steeringIn => 1
  | .ch5In => 2
  | .ch6In => 3
  | .speedometerIn => 4

/-- LINE_OF (R10, R19): the line id of a monitored channel. -/
def lineOf (c : Config) (ch : InputChannel) : Nat :=
  c.lines.getD (channelIndex ch) 0

end Sys2Proof.Machine
end

