-- ==== Sys2Proof/Syntax.lean ====
section
/-! DEFINITION. The operations of the unit: one constructor per row of the opcode map 30_encoding.md R62. A line id is
an index, so it is a Nat; a PWM channel and a status code are the named values of Word.lean; DATA stays 32 bits. -/

namespace Sys2Proof

/-- The twelve operations (R62), with the operands of R64 and R65. -/
inductive Instr where
  /-- CAPEN l: enable capture on line l (R80). -/
  | capen (l : Nat)
  /-- CAPR l: a rising edge on line l (R82). -/
  | capr (l : Nat)
  /-- CAPF l: a falling edge on line l, with the width computation (R83). -/
  | capf (l : Nat)
  /-- RDCLR l: read and clear the width of line l (R86). -/
  | rdclr (l : Nat)
  /-- CLRALL: clear the capture table (R87, R88). -/
  | clrall
  /-- TBADV d: d microseconds pass (R81). -/
  | tbadv (d : U32)
  /-- PWMSET c, w: set the pulse width of output channel c (R99). -/
  | pwmset (c : PwmChannel) (w : S32)
  /-- PWMPER c: one output period of channel c ends (R103). -/
  | pwmper (c : PwmChannel)
  /-- STSET s: a status transition (R112, R114). -/
  | stset (st : Status)
  /-- LEDSTART: start the LED scheduler (R120). -/
  | ledstart
  /-- LEDTICK: one time slot of the LED scheduler (R116). -/
  | ledtick
  /-- LEDBLANK: force the LED off (R121). -/
  | ledblank
deriving DecidableEq, Repr, Inhabited

end Sys2Proof
end

