-- ==== Sys2Proof/WellFormed.lean ====
section
/-! DEFINITION. Which terms of `Instr` are operations of a unit with `maxChannels` capture records: the one check a
type does not make already is the line id's, l < MAX_CHANNELS (30_encoding.md R64, R46). -/

namespace Sys2Proof

/-- Every operand of `i` is inside its space on a unit with `maxChannels` lines (R46, R64): a PWM channel and a status
code are legal by their types, and a u32 or s32 operand admits every value (R65). -/
def Instr.wellFormed (maxChannels : Nat) (i : Instr) : Bool :=
  match i with
  | .capen l => l < maxChannels
  | .capr l => l < maxChannels
  | .capf l => l < maxChannels
  | .rdclr l => l < maxChannels
  | .clrall => true
  | .tbadv _ => true
  | .pwmset _ _ => true
  | .pwmper _ => true
  | .stset _ => true
  | .ledstart => true
  | .ledtick => true
  | .ledblank => true

/-- `i` is an operation of a unit with `maxChannels` lines (R46, R64). -/
abbrev Instr.WellFormed (maxChannels : Nat) (i : Instr) : Prop := i.wellFormed maxChannels = true

end Sys2Proof
end

