-- ==== Sys2Proof/Decode.lean ====
section
/-! DEFINITION. The operation word (30_encoding.md R61), the formats (R70), the decoder (R66) and the encoder (R71).
The decoder is total on every 64-bit word; byte order is not observable (20_memory.md R48), so words are never laid out
as bytes. -/

namespace Sys2Proof

/-- OP = w[63:60] (R61). -/
def opOf (w : Word) : BitVec 4 := w.extractLsb' 60 4

/-- RZ = w[59:40], reserved (R61, R68). -/
def rzOf (w : Word) : BitVec 20 := w.extractLsb' 40 20

/-- SEL = w[39:32] (R61). -/
def selOf (w : Word) : BitVec 8 := w.extractLsb' 32 8

/-- DATA = w[31:0] (R61). -/
def dataOf (w : Word) : BitVec 32 := w.extractLsb' 0 32

/-- The word with the four fields of R61. -/
def wordOf (op : BitVec 4) (rz : BitVec 20) (sel : BitVec 8) (data : BitVec 32) : Word :=
  op ++ rz ++ sel ++ data

/-- The formats of R70. -/
inductive Format where
  | n
  | l
  | c
  | cd
  | s
  | d
deriving DecidableEq, Repr

/-- The format of each opcode (R62, R70); none for the reserved opcodes 0x0, 0xD, 0xE and 0xF (R67). -/
def formatOf (op : BitVec 4) : Option Format :=
  match op.toNat with
  | 0x1 => some .l
  | 0x2 => some .l
  | 0x3 => some .l
  | 0x4 => some .l
  | 0x5 => some .n
  | 0x6 => some .d
  | 0x7 => some .cd
  | 0x8 => some .c
  | 0x9 => some .s
  | 0xA => some .n
  | 0xB => some .n
  | 0xC => some .n
  | _ => none

/-- The format leaves SEL unused, so SEL must be 0 (R64, R70). -/
def selUnused : Format → Bool
  | .n => true
  | .d => true
  | .l => false
  | .c => false
  | .cd => false
  | .s => false

/-- The format leaves DATA unused, so DATA must be 0 (R65, R70). -/
def dataUnused : Format → Bool
  | .d => false
  | .cd => false
  | .n => true
  | .l => true
  | .c => true
  | .s => true

/-- The PWM channel that SEL names (R64). -/
def pwmOfSel (sel : BitVec 8) : Option PwmChannel :=
  match sel.toNat with
  | 0 => some .throttle
  | 1 => some .steering
  | _ => none

/-- The SEL value of a PWM channel (R27). -/
def selOfPwm : PwmChannel → BitVec 8
  | .throttle => 0
  | .steering => 1

/-- The number of a status code (R33). -/
def statusCode : Status → Nat
  | .disconnected => 0
  | .rxError => 1
  | .calibrating => 2
  | .hostInit => 3
  | .hostUserMode => 4
  | .hostLocalMode => 5
  | .hostDisarmed => 6

/-- The status code that SEL names; 7 and above name none (R33, R64). -/
def statusOfSel (sel : BitVec 8) : Option Status :=
  match sel.toNat with
  | 0 => some .disconnected
  | 1 => some .rxError
  | 2 => some .calibrating
  | 3 => some .hostInit
  | 4 => some .hostUserMode
  | 5 => some .hostLocalMode
  | 6 => some .hostDisarmed
  | _ => none

/-- SEL is inside the range R64 gives the format. -/
def selLegal (maxChannels : Nat) (f : Format) (sel : BitVec 8) : Bool :=
  match f with
  | .l => sel.toNat < maxChannels
  | .c => sel.toNat ≤ 1
  | .cd => sel.toNat ≤ 1
  | .s => sel.toNat ≤ 6
  | .n => true
  | .d => true

/-- The operation of R62 with its operands of R64 and R65; none where the opcode or the selector spells nothing. -/
def operationOf (op : BitVec 4) (sel : BitVec 8) (data : BitVec 32) : Option Instr :=
  match op.toNat with
  | 0x1 => some (.capen sel.toNat)
  | 0x2 => some (.capr sel.toNat)
  | 0x3 => some (.capf sel.toNat)
  | 0x4 => some (.rdclr sel.toNat)
  | 0x5 => some .clrall
  | 0x6 => some (.tbadv data)
  | 0x7 => (pwmOfSel sel).map (Instr.pwmset · data)
  | 0x8 => (pwmOfSel sel).map Instr.pwmper
  | 0x9 => (statusOfSel sel).map Instr.stset
  | 0xA => some .ledstart
  | 0xB => some .ledtick
  | 0xC => some .ledblank
  | _ => none

/-- What the decoder returns: an operation, or Illegal with its reason (R66). -/
inductive Decoded where
  | instr (i : Instr)
  | illegal (r : IllegalReason)
deriving DecidableEq, Repr

/-- The decoder (R66), its checks in the order R66 and R75 give: reserved opcode, reserved bits, selector. -/
def decode (maxChannels : Nat) (w : Word) : Decoded :=
  match formatOf (opOf w) with
  | none => .illegal .reservedOpcode
  | some f =>
    if rzOf w ≠ 0 then .illegal .reservedBits
    else if (selUnused f ∧ selOf w ≠ 0) ∨ (dataUnused f ∧ dataOf w ≠ 0) then .illegal .reservedBits
    else if selLegal maxChannels f (selOf w) then
      match operationOf (opOf w) (selOf w) (dataOf w) with
      | some i => .instr i
      | none => .illegal .badSelector
    else .illegal .badSelector

/-- The encoder (R71). -/
def encode : Instr → Word
  | .capen l => wordOf 0x1 0 (BitVec.ofNat 8 l) 0
  | .capr l => wordOf 0x2 0 (BitVec.ofNat 8 l) 0
  | .capf l => wordOf 0x3 0 (BitVec.ofNat 8 l) 0
  | .rdclr l => wordOf 0x4 0 (BitVec.ofNat 8 l) 0
  | .clrall => wordOf 0x5 0 0 0
  | .tbadv d => wordOf 0x6 0 0 d
  | .pwmset c w => wordOf 0x7 0 (selOfPwm c) w
  | .pwmper c => wordOf 0x8 0 (selOfPwm c) 0
  | .stset st => wordOf 0x9 0 (BitVec.ofNat 8 (statusCode st)) 0
  | .ledstart => wordOf 0xA 0 0 0
  | .ledtick => wordOf 0xB 0 0 0
  | .ledblank => wordOf 0xC 0 0 0

/-- The opcode of an operation (R62). -/
def opcode : Instr → BitVec 4
  | .capen _ => 0x1
  | .capr _ => 0x2
  | .capf _ => 0x3
  | .rdclr _ => 0x4
  | .clrall => 0x5
  | .tbadv _ => 0x6
  | .pwmset _ _ => 0x7
  | .pwmper _ => 0x8
  | .stset _ => 0x9
  | .ledstart => 0xA
  | .ledtick => 0xB
  | .ledblank => 0xC

/-- The row of spec/opcode_table.json for an operation: its match and its mask (R74). -/
def tableRow : Instr → Word × Word
  | .capen _ => (0x1000000000000000, 0xFFFFFF00FFFFFFFF)
  | .capr _ => (0x2000000000000000, 0xFFFFFF00FFFFFFFF)
  | .capf _ => (0x3000000000000000, 0xFFFFFF00FFFFFFFF)
  | .rdclr _ => (0x4000000000000000, 0xFFFFFF00FFFFFFFF)
  | .clrall => (0x5000000000000000, 0xFFFFFFFFFFFFFFFF)
  | .tbadv _ => (0x6000000000000000, 0xFFFFFFFF00000000)
  | .pwmset _ _ => (0x7000000000000000, 0xFFFFFFFE00000000)
  | .pwmper _ => (0x8000000000000000, 0xFFFFFFFEFFFFFFFF)
  | .stset _ => (0x9000000000000000, 0xFFFFFFF8FFFFFFFF)
  | .ledstart => (0xA000000000000000, 0xFFFFFFFFFFFFFFFF)
  | .ledtick => (0xB000000000000000, 0xFFFFFFFFFFFFFFFF)
  | .ledblank => (0xC000000000000000, 0xFFFFFFFFFFFFFFFF)

/-- The operation word whose lowest `nbits` bits are those of `w`, every bit above them 0 (R63: always 64 bits). -/
def tableWord (nbits w : Nat) : Word := BitVec.ofNat 64 (w % 2 ^ nbits)

/-- The instruction this decoder reads from an instruction whose bits are `w`, on the unit of `State.reset`. A word
has 64 bits (R63), so no instruction is longer than that. -/
def decodeTableWord (nbits w : Nat) : Option Instr :=
  if nbits ≤ 64 then
    match decode Sys2Proof.Machine.unitConfig.maxChannels (tableWord nbits w) with
    | .instr i => some i
    | .illegal _ => none
  else none

end Sys2Proof
end

