-- ==== Sys2Proof/Machine/Elements.lean ====
section
/-! DEFINITION. The elements the state is made of (10_state.md R20 to R36, R43), the output events (00_scope.md R9),
the LED encoder's table (42_led.md R111) and the reset value of each element (70_reset_and_hazards.md R167, R168). -/

namespace Sys2Proof.Machine

/-- The capture record of one line (R19): CAP_EN[l], RISE[l], WIDTH[l]. -/
structure CaptureRecord where
  /-- CAP_EN[l], 1 bit (R20). -/
  en : Bool
  /-- RISE[l], u32 microseconds (R22). -/
  rise : U32
  /-- WIDTH[l], u32 microseconds (R23). -/
  width : U32
deriving DecidableEq, Repr, Inhabited

/-- The registers of one PWM output channel. -/
structure PwmRegs where
  /-- PWM_W[c], s32 microseconds (R26). -/
  w : S32
  /-- PWM_LO[c], s32: the least width held in the current period (R28). -/
  lo : S32
  /-- PWM_HI[c], s32: the greatest width held in the current period (R28). -/
  hi : S32
deriving DecidableEq, Repr, Inhabited

/-- A colour: LED_OUT (R36). -/
structure Colour where
  r : Byte
  g : Byte
  b : Byte
deriving DecidableEq, Repr, Inhabited

/-- The LED descriptor DESC (R31). -/
structure Desc where
  r : Byte
  g : Byte
  b : Byte
  pat : Byte
deriving DecidableEq, Repr, Inhabited

/-- The fields CLRALL clears in each record (R43, R88). -/
inductive CapField where
  | rise
  | width
deriving DecidableEq, Repr, Inhabited

/-- The fields of DESC (R43, R114). -/
inductive DescField where
  | r
  | g
  | b
  | pat
deriving DecidableEq, Repr, Inhabited

/-- The output events, the only observation of a run beside its final state (R9). -/
inductive OutEvent where
  /-- RdclrResp(l, v): the response of RDCLR l (R72, R86). -/
  | rdclrResp (l : Nat) (v : U32)
  /-- PwmPulse(c, h): one output period of channel c with high time h microseconds (R103). -/
  | pwmPulse (c : PwmChannel) (h : Nat)
  /-- LedWrite(r, g, b): one colour handed to the LED driver (R116, R124). -/
  | ledWrite (r g b : Byte)
deriving DecidableEq, Repr, Inhabited

/-- TABLE(status): the encoder, a pure function of the status (R111, R128). -/
def ledTable : Status → Desc
  | .disconnected => ⟨255, 0, 0, 0x55⟩
  | .rxError => ⟨255, 0, 0, 0x33⟩
  | .calibrating => ⟨255, 255, 255, 0x55⟩
  | .hostInit => ⟨255, 0, 0, 0x18⟩
  | .hostUserMode => ⟨0, 255, 0, 0x18⟩
  | .hostLocalMode => ⟨0, 0, 255, 0x18⟩
  | .hostDisarmed => ⟨0, 255, 0, 0x55⟩

/-- A drawn u32 or s32 value: any of the 2^32 (R14). -/
def drawnU32 (n : Nat) : BitVec 32 := BitVec.ofNat 32 (Config.draw n)

/-- A drawn byte: any of the 256 (R14). -/
def drawnByte (n : Nat) : Byte := BitVec.ofNat 8 (Config.draw n)

/-! The reset values (R168). `n` is the state's counter of draws; the drawn values are made afresh at each reset (R167). -/

/-- TB_RESET, a draw (R21, D6). -/
def resetTb (n : Nat) : U32 := drawnU32 n

/-- Every record all-zero and not enabled (R20, R22, R23). -/
def resetRecord : CaptureRecord := ⟨false, 0, 0⟩

/-- PWM_W[c] a draw, PWM_LO[c] and PWM_HI[c] equal to it (R26, R28, D14). -/
def resetPwm (n : Nat) : PwmRegs := ⟨drawnU32 n, drawnU32 n, drawnU32 n⟩

/-- LED_OUT, any three bytes (R36, D20). -/
def resetLedOut (n : Nat) : Colour := ⟨drawnByte n, drawnByte (n + 1), drawnByte (n + 2)⟩

/-- How many values one reset draws: TB, two PWM widths, three bytes. -/
def resetDraws : Nat := 6

end Sys2Proof.Machine
end

