-- ==== Sys2Proof/Machine/State.lean ====
section
/-! DEFINITION. The state of the unit (10_state.md R18), as plain data, the state after reset (70_reset_and_hazards.md
R168), and the reasons a step can stop. The unit has no program counter, no flags and no byte memory (R37, R38, R47). -/

namespace Sys2Proof.Machine

/-- The unit has no fault state: no operation can fail once decoded (60_exceptions.md R149). So there is no reason to
fault, and no step ever does. DEDUCED, safe: log entry 11. -/
inductive Fault where
deriving DecidableEq, Repr

/-- Why a step is refused. -/
inductive Refusal where
  /-- An operation that has no meaning in the model yet, by its mnemonic; raised by `exec` only, and no arm of it does.
  Safe: the model stops. -/
  | notModelled (mnemonic : String)
  /-- REFUSED(reason, word) of R150: the word spells no operation. Raised by `performWord` for a word the decoder
  rejects, and by the meanings of CAPEN, CAPR, CAPF and RDCLR for a line id outside the table, which no decoded word
  holds (R79). Safe: no state follows, so no later step clears the mark and no claim about such a run is provable. DESIGN
  CHOICE: log entry 3. -/
  | illegal (reason : IllegalReason) (word : Word)
deriving DecidableEq, Repr

/-- The whole state. The fields from `issuer` on are the model's own, not the spec's: who is issuing, what has been
observed, what the environment has handed over, and how many draws have been made. -/
structure State where
  /-- The unit's parameters (R10), which no step changes. -/
  cfg : Config
  /-- TB, u32 (R21). -/
  tb : U32
  /-- The capture table, record l at position l (R19). -/
  caps : List CaptureRecord
  /-- PWM_W[0], PWM_LO[0], PWM_HI[0] (R26, R28). -/
  throttle : PwmRegs
  /-- PWM_W[1], PWM_LO[1], PWM_HI[1] (R26, R28). -/
  steering : PwmRegs
  /-- STATUS, 3 bits (R30). -/
  status : Status
  /-- DESC (R31). -/
  desc : Desc
  /-- PHASE, u3 (R34). -/
  phase : BitVec 3
  /-- LED_RUN, 1 bit (R35). -/
  ledRun : Bool
  /-- LED_OUT (R36). -/
  ledOut : Colour
  /-- CLR_PENDING: the (line, field) pairs a per_field CLRALL has not cleared yet, no pair twice (R43, R88). -/
  clrPending : List (Nat × CapField)
  /-- DESC_PENDING: the descriptor fields a per_field STSET has not written yet, with their new values (R43, R114). -/
  descPending : List (DescField × Byte)
  /-- The agent whose CLRALL is in progress while CLR_PENDING is not empty (R88: the issuing agent). -/
  clrBy : Agent
  /-- The agent whose STSET is in progress while DESC_PENDING is not empty (R114: the issuing agent). -/
  descBy : Agent
  /-- The agent that issued the operation being executed (R7). -/
  issuer : Agent
  /-- The output events emitted so far, oldest first (R9). -/
  events : List OutEvent
  /-- What the agents have issued and the unit has not taken yet, in the total order of R55, first to be taken first. -/
  inbox : List Event
  /-- How many draws have been made (R14). -/
  draws : Nat
deriving DecidableEq, Repr

/-- The state right after reset of a unit with parameters `c`, when `n` draws have been made (R168). -/
def State.resetAt (c : Config) (n : Nat) : State where
  cfg := c
  tb := resetTb n
  caps := List.replicate c.maxChannels resetRecord
  throttle := resetPwm (n + 1)
  steering := resetPwm (n + 2)
  status := .disconnected
  desc := ledTable .disconnected
  phase := 0
  ledRun := false
  ledOut := resetLedOut (n + 3)
  clrPending := []
  descPending := []
  clrBy := .host
  descBy := .host
  issuer := .host
  events := []
  inbox := []
  draws := n + resetDraws

/-- The machine right after reset (R168): nothing issued, nothing observed. -/
def State.reset : State := State.resetAt unitConfig 0

end Sys2Proof.Machine
end

