-- ==== Sys2Proof/Machine/Flags.lean ====
section
/-! DEFINITION. The unit has no status flags and no condition codes (10_state.md R37). What stands here is every
condition an operation's rule tests: the wrap guard, the PWM range and the pattern bit. -/

namespace Sys2Proof.Machine

/-- The wrap guard lets CAPF update the width: `TB >= RISE[l]`, unsigned (R83, R84). -/
abbrev guardPasses (now rise : U32) : Prop := rise.toNat ≤ now.toNat

/-- Every width held in the period lies in 0..PWM_PERIOD_US (R103, R104). -/
abbrev widthsInRange (p : PwmRegs) (periodUs : Nat) : Prop := 0 ≤ p.lo.toInt ∧ p.hi.toInt ≤ (periodUs : Int)

/-- BIT(pat, p): the pattern bit that drives time slot p (R115). -/
def patternBit (order : BitOrder) (pat : Byte) (slot : BitVec 3) : Bool :=
  match order with
  | .msbFirst => pat.getLsbD (7 - slot.toNat)
  | .lsbFirst => pat.getLsbD slot.toNat

end Sys2Proof.Machine
end

