-- ==== Sys2Proof/Machine/Operands.lean ====
section
/-! DEFINITION. How an operation's operands are read (30_encoding.md R64, R65) and the arithmetic on them
(00_scope.md R13). -/

namespace Sys2Proof.Machine

/-- A line id inside the table of this unit (R46, R64). -/
abbrev lineLegal (s : State) (l : Nat) : Prop := l < s.cfg.maxChannels

/-- The smaller of two s32 values (R13, R99). -/
def sMin (a b : S32) : S32 := if a.toInt ≤ b.toInt then a else b

/-- The greater of two s32 values (R13, R99). -/
def sMax (a b : S32) : S32 := if a.toInt ≤ b.toInt then b else a

end Sys2Proof.Machine
end

