-- ==== Sys2Proof/Machine/Ops.lean ====
section
/-! DEFINITION. The shared operations over the state: the capture table's one reader and writer, the PWM registers',
output events, draws, the micro-steps of the split operations, and the external reset. The unit takes no exception and
returns from none (60_exceptions.md R149, R156, R157); what takes their place is the refusal of R150. -/

namespace Sys2Proof.Machine

/-- The outcome of a step of this unit. -/
abbrev Result := Host.Outcome State Fault Refusal

/-! ## The capture table (R19, R45) -/

/-- The record of line l; outside the table there is none, and the all-zero record stands for it. DEDUCED, safe: log entry
22. -/
def State.record (s : State) (l : Nat) : CaptureRecord := s.caps.getD l resetRecord

/-- Write the record of line l; outside the table nothing is written (R46). -/
def State.setRecord (s : State) (l : Nat) (r : CaptureRecord) : State := { s with caps := s.caps.set l r }

/-- A record with RISE and WIDTH 0; CAP_EN is no part of the timing record (R87, D11). -/
def clearRecord (r : CaptureRecord) : CaptureRecord := { r with rise := 0, width := 0 }

/-- Every record's RISE and WIDTH 0 (R87). -/
def State.clearTable (s : State) : State := { s with caps := s.caps.map clearRecord }

/-- A record with one of its two fields 0 (R88). -/
def clearField (f : CapField) (r : CaptureRecord) : CaptureRecord :=
  match f with
  | .rise => { r with rise := 0 }
  | .width => { r with width := 0 }

/-! ## The PWM registers (R26, R28) -/

/-- The registers of channel c. -/
def State.pwm (s : State) (c : PwmChannel) : PwmRegs :=
  match c with
  | .throttle => s.throttle
  | .steering => s.steering

/-- Write the registers of channel c. -/
def State.setPwm (s : State) (c : PwmChannel) (p : PwmRegs) : State :=
  match c with
  | .throttle => { s with throttle := p }
  | .steering => { s with steering := p }

/-! ## Events and draws (R9, R14) -/

/-- `emit E` (R14). -/
def State.emit (s : State) (e : OutEvent) : State := { s with events := s.events ++ [e] }

/-- A draw has been made (R14). -/
def State.countDraw (s : State) : State := { s with draws := s.draws + 1 }

/-- The n-th draw, narrowed to the integers `lo..hi` (R14, R103). An interval of one value leaves no choice. DESIGN CHOICE,
safe: log entries 2 and 23. -/
def drawBetween (n lo hi : Nat) : Nat :=
  if hi ≤ lo then lo else lo + Config.draw n % (hi - lo + 1)

/-! ## Operations on one line (R64, R79) -/

/-- The step of an operation `i` on line l that leaves `t`. A line id outside the table is never decoded (R79); as a
term of `Instr` it is refused as the word that spells it is (R66, R150). DEDUCED, safe: log entry 4. -/
def onLine (i : Instr) (l : Nat) (s t : State) : Result :=
  if lineLegal s l then .next t else .refused (.illegal .badSelector (encode i))

/-! ## Split operations (R43, R88, R114) -/

/-- Every (line, field) pair of a table with n records (R88). -/
def allPairs : Nat → List (Nat × CapField)
  | 0 => []
  | n + 1 => allPairs n ++ [(n, .rise), (n, .width)]

/-- The four fields of a descriptor with their values (R114). -/
def descFields (d : Desc) : List (DescField × Byte) := [(.r, d.r), (.g, d.g), (.b, d.b), (.pat, d.pat)]

/-- `DESC.f <- v` (R114). -/
def setDescField (d : Desc) (f : DescField) (v : Byte) : Desc :=
  match f with
  | .r => { d with r := v }
  | .g => { d with g := v }
  | .b => { d with b := v }
  | .pat => { d with pat := v }

/-- The micro-step of CLRALL that clears the k-th pending pair (R88); nothing when there is none. -/
def State.clrMicroAt (s : State) (k : Nat) : State :=
  match s.clrPending[k]? with
  | none => s
  | some (l, f) =>
    { s with clrPending := s.clrPending.eraseIdx k }.setRecord l (clearField f (s.record l))

/-- The micro-step of STSET that writes the k-th pending field (R114); nothing when there is none. -/
def State.descMicroAt (s : State) (k : Nat) : State :=
  match s.descPending[k]? with
  | none => s
  | some (f, v) =>
    { s with desc := setDescField s.desc f v, descPending := s.descPending.eraseIdx k }

/-- A micro-step of CLRALL, the pair a draw (R88). -/
def State.clrMicro (s : State) : State :=
  (s.clrMicroAt (drawBetween s.draws 0 (s.clrPending.length - 1))).countDraw

/-- A micro-step of STSET, the field a draw (R114). -/
def State.descMicro (s : State) : State :=
  (s.descMicroAt (drawBetween s.draws 0 (s.descPending.length - 1))).countDraw

/-- Agent a's CLRALL is in progress (R88). -/
abbrev clearing (s : State) (a : Agent) : Prop := s.clrPending ≠ [] ∧ s.clrBy = a

/-- Agent a's STSET is in progress (R114). -/
abbrev describing (s : State) (a : Agent) : Prop := s.descPending ≠ [] ∧ s.descBy = a

/-- Agent a has a split operation in progress and so issues nothing else (R88, R114). -/
abbrev busy (s : State) (a : Agent) : Prop := clearing s a ∨ describing s a

/-- Agent a takes the next micro-step of its split operation; without one there is nothing to do. DESIGN CHOICE, safe: log
entry 10. -/
def microStep (s : State) (a : Agent) : State :=
  if clearing s a then s.clrMicro else if describing s a then s.descMicro else s

/-! ## The external reset (R44, R167) -/

/-- `s` with these events emitted and these ones handed over. -/
def State.withHistory (s : State) (emitted : List OutEvent) (handed : List Event) : State :=
  { s with events := emitted, inbox := handed }

/-- Every element at its reset value, the drawn ones afresh; a split operation in progress is abandoned, the events
already emitted stay, and what the environment has issued and the unit has not taken is the environment's. DESIGN CHOICE,
unsafe for operations handed over before a reset: log entry 14. -/
def State.externalReset (s : State) : State :=
  (State.resetAt s.cfg s.draws).withHistory s.events s.inbox

/-! ## What the environment hands over (R55) -/

/-- The next event of the total order and the state without it: the first one handed over, or else whatever the
environment does, a free value. DESIGN CHOICE, safe: log entry 5. -/
def takeEvent (s : State) : Event × State :=
  match s.inbox with
  | e :: rest => (e, { s with inbox := rest })
  | [] => (Config.issue s.draws, s.countDraw)

/-- Hand over `e` to be taken before anything else. -/
def State.hand (s : State) (e : Event) : State := { s with inbox := e :: s.inbox }

/-- An agent that may issue an operation now: HOST, or another one while HOST has a split operation in progress. Two
split operations keep at most two agents busy, and the word means the same whoever issues it (R8). -/
def freeAgent (s : State) : Agent :=
  if ¬ busy s .host then .host else if ¬ busy s .clock then .clock else .ledTimer

end Sys2Proof.Machine
end

