-- ==== Sys2Proof/Machine/Capture.lean ====
section
/-! DEFINITION. The edge-capture operations (40_capture.md): CAPEN, TBADV, CAPR, CAPF, RDCLR, CLRALL. -/

namespace Sys2Proof.Machine

/-- R80: `CAP_EN[l] <- 1`. -/
def execCapen (l : Nat) (s : State) : Result :=
  onLine (.capen l) l s (s.setRecord l { s.record l with en := true })

/-- R81: `TB <- (TB + d) mod 2^32`. -/
def execTbadv (d : U32) (s : State) : Result :=
  .next { s with tb := s.tb + d }

/-- R82, R85: `if CAP_EN[l] = 1 then RISE[l] <- TB`. -/
def execCapr (l : Nat) (s : State) : Result :=
  onLine (.capr l) l s
    (if (s.record l).en then s.setRecord l { s.record l with rise := s.tb } else s)

/-- R83, R84, R85: `if CAP_EN[l] = 1 and TB >= RISE[l] then WIDTH[l] <- TB - RISE[l]`. -/
def execCapf (l : Nat) (s : State) : Result :=
  onLine (.capf l) l s
    (if (s.record l).en ∧ guardPasses s.tb (s.record l).rise then
      s.setRecord l { s.record l with width := s.tb - (s.record l).rise }
    else s)

/-- R86: `v <- WIDTH[l]; WIDTH[l] <- 0; respond(v)`, the response being the event RdclrResp(l, v) (R72). -/
def execRdclr (l : Nat) (s : State) : Result :=
  onLine (.rdclr l) l s
    ((s.setRecord l { s.record l with width := 0 }).emit (.rdclrResp l (s.record l).width))

/-- R87, R88: in `atomic` mode the whole table at once; in `per_field` mode CLR_PENDING takes every pair, and the issuing
agent's micro-steps do the rest. Another agent's CLRALL in progress is replaced: DESIGN CHOICE, unsafe outside R7's
environment, log entry 9. -/
def execClrall (s : State) : Result :=
  .next (match s.cfg.clearAllMode with
    | .atomic => s.clearTable
    | .perField => { s with clrPending := allPairs s.cfg.maxChannels, clrBy := s.issuer })

end Sys2Proof.Machine
end

