-- ==== Sys2Proof/Machine/Led.lean ====
section
/-! DEFINITION. The status and LED operations (42_led.md): STSET, LEDSTART, LEDTICK, LEDBLANK. -/

namespace Sys2Proof.Machine

/-- `LED_OUT <- colour; emit LedWrite(colour)` (R116, R121, R124). -/
def State.writeLed (s : State) (c : Colour) : State :=
  { s with ledOut := c }.emit (.ledWrite c.r c.g c.b)

/-- The colour of one time slot: the descriptor's when its pattern bit is 1, else black (R115, R116). -/
def slotColour (order : BitOrder) (d : Desc) (slot : BitVec 3) : Colour :=
  if patternBit order d.pat slot then ⟨d.r, d.g, d.b⟩ else ⟨0, 0, 0⟩

/-- R112, R113, R114: a status equal to STATUS changes nothing; another one is stored, and the descriptor is rewritten
at once in `atomic` mode, or by the issuing agent's micro-steps in `per_field` mode. Another agent's STSET in progress is
replaced: DESIGN CHOICE, unsafe outside R7's environment, log entry 9. -/
def execStset (st : Status) (s : State) : Result :=
  .next (if st = s.status then s
    else match s.cfg.ledDescMode with
      | .atomic => { s with status := st, desc := ledTable st }
      | .perField => { s with status := st, descPending := descFields (ledTable st), descBy := s.issuer })

/-- R120: `LED_RUN <- 1`. -/
def execLedstart (s : State) : Result :=
  .next { s with ledRun := true }

/-- R116, R117: with LED_RUN = 1, write the colour of slot PHASE and advance PHASE; else nothing. -/
def execLedtick (s : State) : Result :=
  .next (if s.ledRun then
      { s with phase := s.phase + 1 }.writeLed (slotColour s.cfg.ledBitOrder s.desc s.phase)
    else s)

/-- R121: `LED_OUT <- (0, 0, 0); emit LedWrite(0, 0, 0)`. -/
def execLedblank (s : State) : Result :=
  .next (s.writeLed ⟨0, 0, 0⟩)

end Sys2Proof.Machine
end

