-- ==== Sys2Proof/Machine/Pwm.lean ====
section
/-! DEFINITION. The PWM output operations (41_pwm_output.md): PWMSET and PWMPER. -/

namespace Sys2Proof.Machine

/-- The high time of the period that ends, from the widths held in it (R103, R104): a draw between the least and the
greatest when both lie in 0..PWM_PERIOD_US, else a draw in 0..PWM_PERIOD_US. -/
def highTime (p : PwmRegs) (periodUs n : Nat) : Nat :=
  if widthsInRange p periodUs then drawBetween n p.lo.toInt.toNat p.hi.toInt.toNat
  else drawBetween n 0 periodUs

/-- R99, R101: `PWM_W[c] <- w; PWM_LO[c] <- min(PWM_LO[c], w); PWM_HI[c] <- max(PWM_HI[c], w)`, w as given. -/
def execPwmset (c : PwmChannel) (w : S32) (s : State) : Result :=
  .next (s.setPwm c { w := w, lo := sMin (s.pwm c).lo w, hi := sMax (s.pwm c).hi w })

/-- R103: draw the high time, emit PwmPulse(c, h), and start the next period's envelope at PWM_W[c]. -/
def execPwmper (c : PwmChannel) (s : State) : Result :=
  .next (((s.setPwm c { w := (s.pwm c).w, lo := (s.pwm c).w, hi := (s.pwm c).w }).emit
    (.pwmPulse c (highTime (s.pwm c) s.cfg.pwmPeriodUs s.draws))).countDraw)

end Sys2Proof.Machine
end

