-- ==== Sys2Proof/Machine/Dispatch.lean ====
section
/-! DEFINITION. The one match from an operation to its meaning (30_encoding.md R62). -/

namespace Sys2Proof.Machine

/-- The meaning of each operation: one arm per row of R62. -/
def exec (i : Instr) (s : State) : Host.Outcome State Fault Refusal :=
  match i with
  | .capen l => Sys2Proof.Machine.execCapen l s
  | .capr l => Sys2Proof.Machine.execCapr l s
  | .capf l => Sys2Proof.Machine.execCapf l s
  | .rdclr l => Sys2Proof.Machine.execRdclr l s
  | .clrall => Sys2Proof.Machine.execClrall s
  | .tbadv d => Sys2Proof.Machine.execTbadv d s
  | .pwmset c w => Sys2Proof.Machine.execPwmset c w s
  | .pwmper c => Sys2Proof.Machine.execPwmper c s
  | .stset st => Sys2Proof.Machine.execStset st s
  | .ledstart => Sys2Proof.Machine.execLedstart s
  | .ledtick => Sys2Proof.Machine.execLedtick s
  | .ledblank => Sys2Proof.Machine.execLedblank s

end Sys2Proof.Machine
end

