-- ==== Sys2Proof/Machine/Environment.lean ====
section
/-! DEFINITION. One step of the total order of 20_memory.md R55: what happens when an agent issues a word, takes a
micro-step, or the external reset comes. -/

namespace Sys2Proof.Machine

/-- The unit takes an operation word (R66, R150): the operation it spells, or its refusal. -/
def performWord (w : Word) (s : State) : Result :=
  match decode s.cfg.maxChannels w with
  | .instr i => exec i s
  | .illegal r => .refused (.illegal r w)

/-- One event happens. An operation of an agent with a split operation in progress waits for it: that agent takes a
micro-step instead, and the operation stays first in line (R88, R114: it issues nothing else until it is complete).
DESIGN CHOICE, unsafe only for an agent that overlaps its own operations (R166): log entry 8. -/
def performEvent (e : Event) (s : State) : Result :=
  match e with
  | .op a w => if busy s a then .next (microStep (s.hand (.op a w)) a) else performWord w { s with issuer := a }
  | .micro a => .next (microStep s a)
  | .reset => .next s.externalReset

/-- The next event of the total order happens. -/
def performNext (s : State) : Result := performEvent (takeEvent s).1 (takeEvent s).2

/-- The operations R7 gives each agent of the chip's environment. The unit does not check it (R8). -/
def mayIssue : Agent → Instr → Bool
  | .line l, .capr l' => l = l'
  | .line l, .capf l' => l = l'
  | .clock, .tbadv _ => true
  | .pwmSeq c, .pwmper c' => c = c'
  | .ledTimer, .ledtick => true
  | .host, .capen _ => true
  | .host, .rdclr _ => true
  | .host, .clrall => true
  | .host, .pwmset _ _ => true
  | .host, .stset _ => true
  | .host, .ledstart => true
  | .host, .ledblank => true
  | _, _ => false

/-- Hand over the word `w` so that it is the next thing the unit takes, issued by an agent that is not busy. -/
def placeFirst (w : Word) (s : State) : State := s.hand (.op (freeAgent s) w)

end Sys2Proof.Machine
end

