-- ==== Sys2Proof/Machine/Step.lean ====
section
/-! DEFINITION. The step: one atomic step of the unit in the total order of its agents (00_scope.md R6, 20_memory.md
R55), and the host's way to hand over the word that the next step takes. -/

namespace Sys2Proof.Machine

/-- One step (R6). -/
def step (s : State) : Host.Outcome State Fault Refusal := performNext s

/-- `s` with the operation word of those bits handed over so that the next step takes exactly it. -/
def State.withFetchWord (s : State) (nbits w : Nat) : State := placeFirst (tableWord nbits w) s

end Sys2Proof.Machine
end

