-- ==== Sys2Proof/Machine/Pseudo.lean ====
section
/-! DEFINITION. The pseudo-operations (30_encoding.md R77), the boot sequence (70_reset_and_hazards.md R170) and the
assembler syntax (R76, R78). A pseudo-operation has no encoding: it is a list of operations, each a step of its own,
and other agents' operations may fall between them. -/

namespace Sys2Proof.Machine

/-- The five monitored channels in the spec's order (R19, R77). -/
def monitored : List InputChannel := [.throttleIn, .steeringIn, .ch5In, .ch6In, .speedometerIn]

/-- CAPEN.MON (R77). -/
def capenMon (c : Config) : List Instr := monitored.map (fun ch => .capen (lineOf c ch))

/-- The neutral width, 1500 microseconds (R109). -/
def neutralUs : S32 := 1500

/-- PWMNEUTRAL (R77). -/
def pwmNeutral : List Instr := [.pwmset .throttle neutralUs, .pwmset .steering neutralUs]

/-- TELEMREAD (R77). -/
def telemRead (c : Config) : List Instr := monitored.map (fun ch => .rdclr (lineOf c ch))

/-- The operations of boot, in order (R170 steps 2, 5, 6 and 7; its other steps issue none). -/
def bootSequence (c : Config) : List Instr :=
  capenMon c ++ pwmNeutral ++ [.ledblank, .stset .disconnected, .ledstart]

/-! ## Assembler syntax (R76, R78) -/

/-- The document's name of a status (R78). -/
def statusName : Status → List Char
  | .disconnected => "disconnected".toList
  | .rxError => "rx-error".toList
  | .calibrating => "calibrating".toList
  | .hostInit => "host-init".toList
  | .hostUserMode => "host-user-mode".toList
  | .hostLocalMode => "host-local-mode".toList
  | .hostDisarmed => "host-disarmed".toList

/-- The seven statuses in the order of their numbers (R33). -/
def statuses : List Status :=
  [.disconnected, .rxError, .calibrating, .hostInit, .hostUserMode, .hostLocalMode, .hostDisarmed]

/-- The name of a monitored channel (R76). -/
def channelName : InputChannel → List Char
  | .throttleIn => "throttle-in".toList
  | .steeringIn => "steering-in".toList
  | .ch5In => "ch5-in".toList
  | .ch6In => "ch6-in".toList
  | .speedometerIn => "speedometer-in".toList

/-- The value of a digit in the given base, 10 or 16. -/
def digitOf (base : Nat) (ch : Char) : Option Nat :=
  if 48 ≤ ch.toNat ∧ ch.toNat ≤ 57 then some (ch.toNat - 48)
  else if base = 16 ∧ 97 ≤ ch.toNat ∧ ch.toNat ≤ 102 then some (ch.toNat - 87)
  else if base = 16 ∧ 65 ≤ ch.toNat ∧ ch.toNat ≤ 70 then some (ch.toNat - 55)
  else none

/-- The value of a run of digits after the value `acc`. -/
def digitsFrom (base : Nat) : Nat → List Char → Option Nat
  | acc, [] => some acc
  | acc, ch :: rest =>
    match digitOf base ch with
    | some d => digitsFrom base (acc * base + d) rest
    | none => none

/-- A number, decimal or 0x hex (R76). -/
def number : List Char → Option Nat
  | [] => none
  | '0' :: 'x' :: ch :: rest => digitsFrom 16 0 (ch :: rest)
  | ch :: rest => digitsFrom 10 0 (ch :: rest)

/-- A number with an optional leading minus sign, which only a PWMSET width has (R76). -/
def signedNumber : List Char → Option Int
  | '-' :: rest => (number rest).map (fun n => -(n : Int))
  | cs => (number cs).map (fun n => (n : Int))

/-- An L-format operand: a line id or a channel name (R76). -/
def lineOperand (c : Config) (cs : List Char) : Option Nat :=
  match monitored.find? (fun ch => channelName ch = cs) with
  | some ch => some (lineOf c ch)
  | none => number cs

/-- A C or CD operand: 0, 1, throttle or steering (R76). -/
def pwmOperand (cs : List Char) : Option PwmChannel :=
  if cs = "throttle".toList then some .throttle
  else if cs = "steering".toList then some .steering
  else match number cs with
    | some 0 => some .throttle
    | some 1 => some .steering
    | _ => none

/-- An S operand: a status number or name (R76, R78). -/
def statusOperand (cs : List Char) : Option Status :=
  match statuses.find? (fun st => statusName st = cs) with
  | some st => some st
  | none => (number cs).bind (statuses[·]?)

/-- A D operand: the u32 advance (R65, R76). -/
def advanceOperand (cs : List Char) : Option U32 :=
  (number cs).bind (fun n => if n < 2 ^ 32 then some (BitVec.ofNat 32 n) else none)

/-- A PWMSET width: an s32 value (R65, R76). -/
def widthOperand (cs : List Char) : Option S32 :=
  (signedNumber cs).bind
    (fun v => if -(2 ^ 31) ≤ v ∧ v < 2 ^ 31 then some (BitVec.ofInt 32 v) else none)

/-- The text before the comment a semicolon begins (R76). -/
def withoutComment (cs : List Char) : List Char := cs.takeWhile (· ≠ ';')

/-- The text without the blanks around it. -/
def trimmed (cs : List Char) : List Char :=
  ((cs.dropWhile (· = ' ')).reverse.dropWhile (· = ' ')).reverse

/-- The operands, separated by a comma and a blank (R76). -/
def operandsOf : List Char → List (List Char)
  | [] => [[]]
  | ',' :: ' ' :: rest => [] :: operandsOf rest
  | ch :: rest =>
    match operandsOf rest with
    | [] => [[ch]]
    | f :: fs => (ch :: f) :: fs

/-- The operations one mnemonic with its operands stands for (R62, R76, R77); none where the syntax has no such line. -/
def assembleFields (c : Config) (mnemonic : List Char) (operands : List (List Char)) : Option (List Instr) :=
  if mnemonic = "CAPEN".toList then
    match operands with | [l] => (lineOperand c l).map (fun l => [.capen l]) | _ => none
  else if mnemonic = "CAPR".toList then
    match operands with | [l] => (lineOperand c l).map (fun l => [.capr l]) | _ => none
  else if mnemonic = "CAPF".toList then
    match operands with | [l] => (lineOperand c l).map (fun l => [.capf l]) | _ => none
  else if mnemonic = "RDCLR".toList then
    match operands with | [l] => (lineOperand c l).map (fun l => [.rdclr l]) | _ => none
  else if mnemonic = "CLRALL".toList then
    match operands with | [] => some [.clrall] | _ => none
  else if mnemonic = "TBADV".toList then
    match operands with | [d] => (advanceOperand d).map (fun d => [.tbadv d]) | _ => none
  else if mnemonic = "PWMSET".toList then
    match operands with
    | [ch, w] => (pwmOperand ch).bind (fun ch => (widthOperand w).map (fun w => [.pwmset ch w]))
    | _ => none
  else if mnemonic = "PWMPER".toList then
    match operands with | [ch] => (pwmOperand ch).map (fun ch => [.pwmper ch]) | _ => none
  else if mnemonic = "STSET".toList then
    match operands with | [st] => (statusOperand st).map (fun st => [.stset st]) | _ => none
  else if mnemonic = "LEDSTART".toList then
    match operands with | [] => some [.ledstart] | _ => none
  else if mnemonic = "LEDTICK".toList then
    match operands with | [] => some [.ledtick] | _ => none
  else if mnemonic = "LEDBLANK".toList then
    match operands with | [] => some [.ledblank] | _ => none
  else if mnemonic = "CAPEN.MON".toList then
    match operands with | [] => some (capenMon c) | _ => none
  else if mnemonic = "PWMNEUTRAL".toList then
    match operands with | [] => some pwmNeutral | _ => none
  else if mnemonic = "TELEMREAD".toList then
    match operands with | [] => some (telemRead c) | _ => none
  else none

/-- One line of assembler text (R76): the operations it stands for, none of them outside the unit's spaces (R46). A
line with a comment only stands for no operation. DESIGN CHOICE in the corners R76 leaves open, safe: log entry 20. -/
def assembleLine (c : Config) (line : List Char) : Option (List Instr) :=
  let text := trimmed (withoutComment line)
  if text = [] then some []
  else
    let rest := trimmed (text.dropWhile (· ≠ ' '))
    match assembleFields c (text.takeWhile (· ≠ ' ')) (if rest = [] then [] else operandsOf rest) with
    | some is => if is.all (Instr.wellFormed c.maxChannels) then some is else none
    | none => none

end Sys2Proof.Machine
end

