-- ==== Sys2Proof/Machine/HostAgent.lean ====
section
/-! DEFINITION. The reference behaviour of the HOST agent (43_host_usage.md). It is no part of the unit (00_scope.md R5,
R42) and adds nothing to the meaning of any operation: `step` leaves HOST free (R129). What each duty decides is a
function from what the host holds and reads to what it sends and the operations it issues, in order; the runs of the
duties, step by step, stand in Controller.lean. -/

namespace Sys2Proof.Machine

/-- The byte of an ASCII character. -/
def ascii (ch : Char) : Byte := BitVec.ofNat 8 ch.toNat

/-- The host's command state (R42, R136). -/
structure HostCommand where
  throttleUs : S32
  steeringUs : S32
deriving DecidableEq, Repr

/-- The command state before any line: neutral (R136). -/
def hostCommandInit : HostCommand := ⟨neutralUs, neutralUs⟩

/-! ## Command intake (R130 to R138) -/

/-- The newline byte. -/
def newline : Byte := 10

/-- The first complete line of the input stream, without its newline, and the stream after it; none while no newline has
come (R130). -/
def takeLine : List Byte → Option (List Byte × List Byte)
  | [] => none
  | b :: rest =>
    if b = newline then some ([], rest)
    else match takeLine rest with
      | some (line, after) => some (b :: line, after)
      | none => none

/-- The value of a decimal digit. -/
def decimalDigit (b : Byte) : Option Nat :=
  if 48 ≤ b.toNat ∧ b.toNat ≤ 57 then some (b.toNat - 48) else none

/-- The value of a run of decimal digits after the value `acc`. -/
def decimalFrom : Nat → List Byte → Option Nat
  | acc, [] => some acc
  | acc, b :: rest =>
    match decimalDigit b with
    | some d => decimalFrom (acc * 10 + d) rest
    | none => none

/-- One or more decimal digits (R131). -/
def decimalNat : List Byte → Option Nat
  | [] => none
  | b :: rest => decimalFrom 0 (b :: rest)

/-- `<int>` before the range check: an optional minus sign, then digits (R131). -/
def decimalInt : List Byte → Option Int
  | [] => none
  | b :: rest =>
    if b = ascii '-' then (decimalNat rest).map (fun n => -(n : Int))
    else (decimalNat (b :: rest)).map (fun n => (n : Int))

/-- `<int>`: its value is in -2^31..2^31-1, or the line fails to parse (R131, R138). -/
def hostInt (bs : List Byte) : Option S32 :=
  match decimalInt bs with
  | some v => if -(2 ^ 31) ≤ v ∧ v ≤ 2 ^ 31 - 1 then some (BitVec.ofInt 32 v) else none
  | none => none

/-- The fields of a line between its commas (R131). -/
def commaFields : List Byte → List (List Byte)
  | [] => [[]]
  | b :: rest =>
    if b = ascii ',' then [] :: commaFields rest
    else match commaFields rest with
      | [] => [[b]]
      | f :: fs => (b :: f) :: fs

/-- `<int>,<int>,<word>`, the word one or more bytes with no comma and no newline (R131); any other line fails. -/
def parseLine (line : List Byte) : Option (S32 × S32 × List Byte) :=
  match commaFields line with
  | [t, s, word] =>
    if word = [] ∨ newline ∈ word then none
    else match hostInt t, hostInt s with
      | some t, some s => some (t, s, word)
      | _, _ => none
  | _ => none

/-- The status words, by exact match (R133). -/
def statusWord (word : List Byte) : Option Status :=
  if word = [ascii 'i', ascii 'n', ascii 'i', ascii 't'] then some .hostInit
  else if word = [ascii 'd', ascii 'i', ascii 's', ascii 'a', ascii 'r', ascii 'm', ascii 'e', ascii 'd'] then
    some .hostDisarmed
  else if word = [ascii 'u', ascii 's', ascii 'e', ascii 'r'] then some .hostUserMode
  else if word = [ascii 'l', ascii 'o', ascii 'c', ascii 'a', ascii 'l'] then some .hostLocalMode
  else none

/-- STSET of a known status word, nothing for another one (R132, R134). -/
def statusWordOps (word : List Byte) : List Instr :=
  match statusWord word with
  | some st => [.stset st]
  | none => []

/-- What one run of the command-intake duty makes of the line read, without its newline, or of none (R130). A longer line than
HOST_LINE_MAX is cut (R137); a line that does not parse changes nothing and issues nothing (R135). -/
def commandDuty (c : Config) (line : Option (List Byte)) (cmd : HostCommand) : HostCommand × List Instr :=
  match line with
  | none => (cmd, [])
  | some bytes =>
    match parseLine (bytes.take c.hostLineMax) with
    | some (t, s, word) =>
      (⟨t, s⟩, statusWordOps word ++ [.pwmset .throttle t, .pwmset .steering s])
    | none => (cmd, [])

/-! ## Telemetry (R139 to R147) -/

/-- The five responses of TELEMREAD (R139). -/
structure Widths where
  throttle : U32
  steering : U32
  ch5 : U32
  ch6 : U32
  speedometer : U32
deriving DecidableEq, Repr

/-- No response kept yet. -/
def Widths.zero : Widths := ⟨0, 0, 0, 0, 0⟩

/-- Keep the response of a channel's RDCLR (R139). -/
def Widths.keep (v : Widths) (ch : InputChannel) (w : U32) : Widths :=
  match ch with
  | .throttleIn => { v with throttle := w }
  | .steeringIn => { v with steering := w }
  | .ch5In => { v with ch5 := w }
  | .ch6In => { v with ch6 := w }
  | .speedometerIn => { v with speedometer := w }

/-- A value in decimal (R141). -/
def decimalText (n : Nat) : List Byte := (Nat.toDigits 10 n).map ascii

/-- Fields with a comma between each two. -/
def joinFields : List (List Byte) → List Byte
  | [] => []
  | [f] => f
  | f :: fs => f ++ ascii ',' :: joinFields fs

/-- The telemetry timestamp: the host's own clock modulo TELEM_TS_MOD, and nothing of the unit (R147, D41). -/
def timestamp (c : Config) (clock : Nat) : Nat := clock % c.telemTsMod

/-- The telemetry line (R141). The sensor readings are the host's own (R145). -/
def telemetryLine (ts : Nat) (v : Widths) (sensorLeft sensorRight : Nat) : List Byte :=
  joinFields
    [decimalText ts, decimalText v.throttle.toNat, decimalText v.steering.toNat, decimalText v.ch5.toNat,
      decimalText v.ch6.toNat, decimalText v.speedometer.toNat, decimalText sensorLeft, decimalText sensorRight]
    ++ [newline]

/-- The sentinel line: the timestamp and seven fields of -1 (R142). -/
def sentinelLine (ts : Nat) : List Byte :=
  joinFields (decimalText ts :: List.replicate 7 [ascii '-', ascii '1']) ++ [newline]

/-- The CLRALL that the variant `read_then_clrall` adds after the line (R143). -/
def telemClearOps (c : Config) : List Instr :=
  match c.telemClear with
  | .rdclr => []
  | .readThenClrall => [.clrall]

/-- The end of a run of the telemetry duty, from the time, the five responses kept and the readings: the line it emits
and the operations it then issues. A throttle width of 0 is signal loss, whatever the other widths (R140, R144). That
CLRALL comes after STSET is a DESIGN CHOICE, unsafe for claims about the host's order: log entry 18. -/
def telemetryReport (c : Config) (clock : Nat) (v : Widths) (sensorLeft sensorRight : Nat) : List Byte × List Instr :=
  if v.throttle = 0 then (sentinelLine (timestamp c clock), .stset .rxError :: telemClearOps c)
  else (telemetryLine (timestamp c clock) v sensorLeft sensorRight, telemClearOps c)

end Sys2Proof.Machine
end

