-- ==== Sys2Proof/Machine/Controller.lean ====
section
/-! DEFINITION. The whole controller: the unit with the reference host as its HOST agent (43_host_usage.md R129), which
boots (70_reset_and_hazards.md R170) and then runs the command-intake duty (R130) and the telemetry duty (R139). The
unit's own `step` leaves HOST free; nothing here changes the meaning of an operation. -/

namespace Sys2Proof.Machine

/-- One act of a run of a duty, or of boot. -/
inductive HostAct where
  /-- Issue an operation. -/
  | issue (i : Instr)
  /-- Issue the RDCLR of a monitored channel and keep its response (R139). -/
  | read (ch : InputChannel)
  /-- Emit the telemetry line and go on to the operations that follow it (R140, R141, R143). -/
  | report
deriving DecidableEq, Repr

/-- What the reference host holds (R42). None of it is state of the unit. -/
structure HostState where
  /-- The command state (R136). -/
  command : HostCommand
  /-- The left sensor reading, as last refreshed (R145). -/
  sensorLeft : Nat
  /-- The right sensor reading, as last refreshed (R145). -/
  sensorRight : Nat
  /-- The bytes of the input stream that have come and have not been read, oldest first (R130). -/
  input : List Byte
  /-- The bytes of the telemetry stream, oldest first (R141, R142). -/
  output : List Byte
  /-- The host's clock as the telemetry run in progress took it (R139, R147). -/
  clock : Nat
  /-- The responses the telemetry run in progress has kept (R139). -/
  kept : Widths
  /-- What is left to begin of boot or of the run in progress (R146). -/
  todo : List HostAct
deriving DecidableEq, Repr

/-- The unit and its host. -/
structure Controller where
  unit : State
  host : HostState
deriving DecidableEq, Repr

/-- The outcome of a step of the controller. -/
abbrev ControllerResult := Host.Outcome Controller Fault Refusal

/-- What can happen in the controller. -/
inductive ControllerEvent where
  /-- These bytes come on the host's input stream. -/
  | receive (bytes : List Byte)
  /-- A run of the command-intake duty begins, the ADC giving these readings (R130, R145). -/
  | commandRun (left right : Nat)
  /-- A run of the telemetry duty begins, the host's clock standing at this value (R139, R147). -/
  | telemetryRun (clock : Nat)
  /-- HOST takes its next step: the next act of the run in progress, or a micro-step of its split operation. -/
  | hostStep
  /-- Another agent takes an operation of its own (R7). -/
  | agentStep (a : Agent) (i : Instr)
  /-- The external reset (R167). -/
  | reset
deriving DecidableEq, Repr

/-! ## Boot and reset -/

/-- The host at its start, `n` draws having been made: neutral command state (R136), nothing received, nothing sent, boot
to do (R170). A reading before the first refresh is a free value. DESIGN CHOICE, safe: log entry 26. -/
def HostState.start (c : Config) (n : Nat) : HostState where
  command := hostCommandInit
  sensorLeft := Config.draw n
  sensorRight := Config.draw (n + 1)
  input := []
  output := []
  clock := 0
  kept := Widths.zero
  todo := (bootSequence c).map HostAct.issue

/-- The controller whose unit has just been reset: the host starts, its two readings drawn after the unit's draws. -/
def Controller.start (u : State) : Controller where
  unit := u.countDraw.countDraw
  host := HostState.start u.cfg u.draws

/-- The external reset restarts the host too. What it has sent stays sent; what it has received and not read is lost.
DESIGN CHOICE, unsafe for bytes received and the command state held before a reset: log entry 26. -/
def Controller.reset (k : Controller) : Controller :=
  let s := Controller.start k.unit.externalReset
  { s with host := { s.host with output := k.host.output } }

/-! ## The beginning of a run -/

/-- Boot or a run of a duty is in progress: an act of it is left to begin, or the split operation it began last is not
complete (R88, R114, R146). -/
abbrev Controller.running (k : Controller) : Prop := k.host.todo ≠ [] ∨ busy k.unit .host

/-- A run begins, and `host` is what the host holds then. The duties never overlap: while a run is in progress no other one
begins (R146). -/
def Controller.beginRun (k : Controller) (host : HostState) : Controller :=
  if k.running then k else { k with host := host }

/-- A run of the command-intake duty begins: refresh both readings, read one line if one is complete, and go on to the
operations of R132; without a complete line the cycle is a no-op (R130). -/
def HostState.beginCommand (c : Config) (left right : Nat) (h : HostState) : HostState :=
  match takeLine h.input with
  | none => { h with sensorLeft := left, sensorRight := right }
  | some (line, after) =>
    { h with
      sensorLeft := left, sensorRight := right, input := after,
      command := (commandDuty c (some line) h.command).1,
      todo := (commandDuty c (some line) h.command).2.map HostAct.issue }

/-- A run of the telemetry duty begins: take the time, then the five reads in the order of TELEMREAD, then the report
(R139). -/
def HostState.beginTelemetry (clock : Nat) (h : HostState) : HostState :=
  { h with clock := clock, kept := Widths.zero, todo := monitored.map HostAct.read ++ [.report] }

/-! ## HOST's steps -/

/-- The response among the events that a step has added (R72); none where it added no response. -/
def responseOf (before after : List OutEvent) : Option U32 :=
  match after.drop before.length with
  | .rdclrResp _ v :: _ => some v
  | _ => none

/-- HOST issues an operation, and `host` says what the host holds after the unit's step. -/
def Controller.issue (k : Controller) (i : Instr) (host : State → HostState) : ControllerResult :=
  match exec i { k.unit with issuer := .host } with
  | .next u => .next { unit := u, host := host u }
  | .fault r => .fault r
  | .refused r => .refused r

/-- HOST issues the RDCLR of a channel and keeps the response (R139). -/
def HostState.keepResponse (h : HostState) (ch : InputChannel) (response : Option U32) : HostState :=
  match response with
  | some v => { h with kept := h.kept.keep ch v }
  | none => h

/-- Emit the telemetry line of the run and go on to the operations that follow it (R140 to R143). -/
def HostState.report (c : Config) (h : HostState) : HostState :=
  { h with
    output := h.output ++ (telemetryReport c h.clock h.kept h.sensorLeft h.sensorRight).1,
    todo := (telemetryReport c h.clock h.kept h.sensorLeft h.sensorRight).2.map HostAct.issue ++ h.todo }

/-- HOST's next step. While a split operation of HOST is in progress it is a micro-step of it and nothing else (R88,
R114); between runs there is none. -/
def Controller.hostStep (k : Controller) : ControllerResult :=
  if busy k.unit .host then .next { k with unit := microStep k.unit .host }
  else
    match k.host.todo with
    | [] => .next k
    | .issue i :: rest => k.issue i (fun _ => { k.host with todo := rest })
    | .read ch :: rest =>
      k.issue (.rdclr (lineOf k.unit.cfg ch))
        (fun u => { k.host with todo := rest }.keepResponse ch (responseOf k.unit.events u.events))
    | .report :: rest => .next { k with host := { k.host with todo := rest }.report k.unit.cfg }

/-- One step of the controller. HOST's operations are those of its runs only; an operation that R7 does not give its agent
does not happen. DESIGN CHOICE, safe: log entry 17. -/
def Controller.step (k : Controller) (e : ControllerEvent) : ControllerResult :=
  match e with
  | .receive bytes => .next { k with host := { k.host with input := k.host.input ++ bytes } }
  | .commandRun left right => .next (k.beginRun (k.host.beginCommand k.unit.cfg left right))
  | .telemetryRun clock => .next (k.beginRun (k.host.beginTelemetry clock))
  | .hostStep => k.hostStep
  | .agentStep a i =>
    if a ≠ .host ∧ mayIssue a i ∧ i.wellFormed k.unit.cfg.maxChannels then
      match exec i { k.unit with issuer := a } with
      | .next u => .next { k with unit := u }
      | .fault r => .fault r
      | .refused r => .refused r
    else .next k
  | .reset => .next k.reset

end Sys2Proof.Machine
end

