-- ==== Sys2Proof/Safety.lean ====
section
/-! DEFINITION. What counts as a sound state, and as an event of the chip's environment, in the terms claims use. -/

namespace Sys2Proof.Machine

/-- One field of a descriptor (R31). -/
def descField (d : Desc) : DescField → Byte
  | .r => d.r
  | .g => d.g
  | .b => d.b
  | .pat => d.pat

/-- `PWM_LO[c] <= PWM_W[c] <= PWM_HI[c]` (R28). -/
abbrev EnvelopeHolds (p : PwmRegs) : Prop := p.lo.toInt ≤ p.w.toInt ∧ p.w.toInt ≤ p.hi.toInt

/-- The invariant of the unit: what holds at reset and what every step keeps, and so what holds in every run. -/
structure Inv (s : State) : Prop where
  /-- The parameters are legal (R10). -/
  cfgLegal : s.cfg.Legal
  /-- The capture table has exactly MAX_CHANNELS records (R19). -/
  tableSize : s.caps.length = s.cfg.maxChannels
  /-- The envelope takes in the width register of each channel (R28). -/
  envelope : ∀ c, EnvelopeHolds (s.pwm c)
  /-- A record never enabled is all zero: only an accepted edge writes one (R85, R86). -/
  neverEnabled : ∀ r ∈ s.caps, r.en = false → r.rise = 0 ∧ r.width = 0
  /-- CLR_PENDING holds pairs of the table (R88). -/
  clrPairs : ∀ p ∈ s.clrPending, p.1 < s.cfg.maxChannels
  /-- CLR_PENDING is a set (R43). -/
  clrNodup : s.clrPending.Nodup
  /-- No CLRALL is in progress in `atomic` mode (R18, R43). -/
  clrAtomic : s.cfg.clearAllMode = .atomic → s.clrPending = []
  /-- DESC_PENDING holds the new values of its fields (R43, R114). -/
  descValues : ∀ p ∈ s.descPending, p.2 = descField (ledTable s.status) p.1
  /-- DESC_PENDING is a set of fields (R43). -/
  descNodup : (s.descPending.map Prod.fst).Nodup
  /-- No STSET is in progress in `atomic` mode (R18, R43). -/
  descAtomic : s.cfg.ledDescMode = .atomic → s.descPending = []
  /-- A field of DESC that is not pending is the encoder's (R32, R114). -/
  descTable : ∀ f, f ∈ s.descPending.map Prod.fst ∨ descField s.desc f = descField (ledTable s.status) f

/-- An event of the chip's environment: an agent issues the word of an operation of its own (R7, R166), takes a
micro-step, or the external reset comes. -/
def FromEnvironment (maxChannels : Nat) : Event → Prop
  | .op a w => ∃ i, decode maxChannels w = .instr i ∧ mayIssue a i = true
  | .micro _ => True
  | .reset => True

/-- No split operation is in progress, so the run may be over (R43). -/
abbrev Settled (s : State) : Prop := s.clrPending = [] ∧ s.descPending = []

/-- The values the spec gives the state of a unit with parameters `c` right after reset (R168). An element drawn at reset
may hold anything (TB, PWM_W, LED_OUT). -/
structure ResetValues (c : Config) (s : State) : Prop where
  /-- The unit is the one reset, with its MAX_CHANNELS records. -/
  unit : s.cfg = c ∧ s.caps.length = c.maxChannels
  /-- CAP_EN[l] = 0, RISE[l] = 0, WIDTH[l] = 0, every l. -/
  records : ∀ l, (s.record l).en = false ∧ (s.record l).rise = 0 ∧ (s.record l).width = 0
  /-- PWM_LO[c] and PWM_HI[c] equal to PWM_W[c]. -/
  pwm : ∀ ch, (s.pwm ch).lo = (s.pwm ch).w ∧ (s.pwm ch).hi = (s.pwm ch).w
  /-- STATUS 0, disconnected. -/
  status : s.status = .disconnected
  /-- DESC (255, 0, 0, 0x55). -/
  desc : s.desc = ⟨255, 0, 0, 0x55⟩
  /-- PHASE 0. -/
  phase : s.phase = 0
  /-- LED_RUN 0. -/
  ledRun : s.ledRun = false
  /-- CLR_PENDING and DESC_PENDING empty. -/
  settled : Settled s

/-- A sequence of operations with nothing else between them; it ends at the first refusal. -/
def runOps : List Instr → State → Result
  | [], s => .next s
  | i :: is, s =>
    match exec i s with
    | .next t => runOps is t
    | .fault r => .fault r
    | .refused r => .refused r

/-- A CAPF on line l now would be accepted: captured and not dropped (R83, R85). -/
abbrev Accepts (s : State) (l : Nat) : Prop :=
  (s.record l).en = true ∧ (s.record l).rise.toNat ≤ s.tb.toNat

/-- Some CAPF on line l is accepted in the course of the operations (R90). -/
def acceptsCapf (l : Nat) : List Instr → State → Prop
  | [], _ => False
  | i :: is, s =>
    (i = .capf l ∧ Accepts s l) ∨
      match exec i s with
      | .next t => acceptsCapf l is t
      | .fault _ => False
      | .refused _ => False

/-- `t` is `s` but for the record of line l. -/
structure OnlyRecord (l : Nat) (s t : State) : Prop where
  /-- Every field but the table is the same. -/
  rest : { t with caps := s.caps } = s
  /-- The table has as many records. -/
  size : t.caps.length = s.caps.length
  /-- Every other record is the same. -/
  others : ∀ k, k ≠ l → t.record k = s.record k

/-- "Boot complete", R172: every operation of boot is among those that have been performed. -/
abbrev BootComplete (c : Config) (performed : List Instr) : Prop := ∀ i ∈ bootSequence c, i ∈ performed

end Sys2Proof.Machine
end

