-- ==== Sys2Proof/Certificates/Slice0/Obligations.lean ====
section
/-! DEFINITION. The statements for the provers, each after the numbered rule it formalises. -/

open Sys2Proof
open Sys2Proof.Machine

/-! ## Encoding (30_encoding.md) -/

/-- R71: the encoder's words, and the two directions of encoding and decoding as inverses. -/
def Obligations.EncodeAndDecodeAreInverse : Prop :=
  ((∀ l, l < 256 →
      encode (.capen l) = ((0x1 : Word) <<< 60) ||| (BitVec.ofNat 64 l <<< 32) ∧
      encode (.capr l) = ((0x2 : Word) <<< 60) ||| (BitVec.ofNat 64 l <<< 32) ∧
      encode (.capf l) = ((0x3 : Word) <<< 60) ||| (BitVec.ofNat 64 l <<< 32) ∧
      encode (.rdclr l) = ((0x4 : Word) <<< 60) ||| (BitVec.ofNat 64 l <<< 32)) ∧
    encode .clrall = 0x5000000000000000 ∧
    (∀ d, encode (.tbadv d) = 0x6000000000000000 ||| BitVec.ofNat 64 d.toNat) ∧
    (∀ w, encode (.pwmset .throttle w) =
      0x7000000000000000 ||| ((0 : Word) <<< 32) ||| BitVec.ofInt 64 (w.toInt % 2 ^ 32)) ∧
    (∀ w, encode (.pwmset .steering w) =
      0x7000000000000000 ||| ((1 : Word) <<< 32) ||| BitVec.ofInt 64 (w.toInt % 2 ^ 32)) ∧
    encode (.pwmper .throttle) = 0x8000000000000000 ||| ((0 : Word) <<< 32) ∧
    encode (.pwmper .steering) = 0x8000000000000000 ||| ((1 : Word) <<< 32) ∧
    (∀ st, encode (.stset st) = 0x9000000000000000 ||| (BitVec.ofNat 64 (statusCode st) <<< 32)) ∧
    encode .ledstart = 0xA000000000000000 ∧
    encode .ledtick = 0xB000000000000000 ∧
    encode .ledblank = 0xC000000000000000) ∧
  (∀ mc i, mc ≤ 256 → i.WellFormed mc → decode mc (encode i) = .instr i) ∧
  (∀ mc w i, decode mc w = .instr i → encode i = w)

/-- R69: every word is either the word of exactly one operation, and decodes to it, or it is refused and is the word of
none. -/
def Obligations.WordIsOneOperationOrRefused : Prop :=
  ∀ mc w, mc ≤ 256 →
    (∃ i : Instr, i.WellFormed mc ∧ decode mc w = .instr i ∧ encode i = w ∧
      ∀ j : Instr, j.WellFormed mc → encode j = w → j = i) ∨
    (∃ r, decode mc w = .illegal r ∧
      (∀ s : State, s.cfg.maxChannels = mc → performWord w s = .refused (.illegal r w)) ∧
      ∀ j : Instr, j.WellFormed mc → encode j ≠ w)

/-- R67: a reserved opcode is refused whatever the other bits are; the all-zero word is one. -/
def Obligations.ReservedOpcodesRefused : Prop :=
  (∀ w, opOf w = 0x0 ∨ opOf w = 0xD ∨ opOf w = 0xE ∨ opOf w = 0xF →
    ∀ s : State, performWord w s = .refused (.illegal .reservedOpcode w)) ∧
  (∀ s : State, performWord 0 s = .refused (.illegal .reservedOpcode 0))

/-- R68: a 1 in RZ, in an unused SEL or in an unused DATA is refused. SEL is unused by CLRALL, TBADV and the three LED
operations without an operand (OP 5, 6, A, B, C); DATA by all but TBADV and PWMSET (OP 6, 7). -/
def Obligations.ReservedBitsRefused : Prop :=
  ∀ (w : Word) (s : State), 1 ≤ (opOf w).toNat → (opOf w).toNat ≤ 12 →
    rzOf w ≠ 0 ∨
      (selOf w ≠ 0 ∧ (opOf w = 0x5 ∨ opOf w = 0x6 ∨ opOf w = 0xA ∨ opOf w = 0xB ∨ opOf w = 0xC)) ∨
      (dataOf w ≠ 0 ∧ opOf w ≠ 0x6 ∧ opOf w ≠ 0x7) →
    performWord w s = .refused (.illegal .reservedBits w)

/-- R46: an index outside its space spells no operation, and no operation reaches a record outside the table. -/
def Obligations.IndexOutsideItsSpaceRefused : Prop :=
  (∀ (w : Word) (s : State), rzOf w = 0 →
    (dataOf w = 0 ∧ (opOf w = 0x1 ∨ opOf w = 0x2 ∨ opOf w = 0x3 ∨ opOf w = 0x4) ∧
        s.cfg.maxChannels ≤ (selOf w).toNat) ∨
      (opOf w = 0x7 ∧ 1 < (selOf w).toNat) ∨
      (dataOf w = 0 ∧ opOf w = 0x8 ∧ 1 < (selOf w).toNat) ∨
      (dataOf w = 0 ∧ opOf w = 0x9 ∧ 6 < (selOf w).toNat) →
    performWord w s = .refused (.illegal .badSelector w)) ∧
  (∀ i (s t : State), s.caps.length = s.cfg.maxChannels → exec i s = .next t →
    t.caps.length = s.caps.length ∧ ∀ l, s.cfg.maxChannels ≤ l → t.record l = s.record l)

/-- R74: a word that decodes selects its operation's row of the table; a word that selects a row decodes to an operation
of that row, or breaks the row's constraint on SEL and is Illegal(BadSelector). -/
def Obligations.TableRowsSelectOperations : Prop :=
  ∀ mc (w : Word),
    (∀ i, decode mc w = .instr i → w &&& (tableRow i).2 = (tableRow i).1) ∧
    (∀ i, w &&& (tableRow i).2 = (tableRow i).1 →
      (∃ j, decode mc w = .instr j ∧ opcode j = opcode i) ∨
      (decode mc w = .illegal .badSelector ∧
        ((1 ≤ (opcode i).toNat ∧ (opcode i).toNat ≤ 4 ∧ mc ≤ (selOf w).toNat) ∨
          (opcode i = 0x9 ∧ selOf w = 7))))

/-- R73: the worked encodings, on a unit with 8 lines. -/
def Obligations.WorkedEncodingsDecode : Prop :=
  decode 8 0x1000000400000000 = .instr (.capen 4) ∧
  decode 8 0x2000000000000000 = .instr (.capr 0) ∧
  decode 8 0x3000000300000000 = .instr (.capf 3) ∧
  decode 8 0x4000000100000000 = .instr (.rdclr 1) ∧
  decode 8 0x60000000000005DC = .instr (.tbadv 1500) ∧
  decode 8 0x70000000000005DC = .instr (.pwmset .throttle 1500) ∧
  decode 8 0x7000000100000578 = .instr (.pwmset .steering 1400) ∧
  decode 8 0x70000001FFFFFFFF = .instr (.pwmset .steering (-1)) ∧
  decode 8 0x8000000100000000 = .instr (.pwmper .steering) ∧
  decode 8 0x9000000400000000 = .instr (.stset .hostUserMode) ∧
  decode 8 0x0000000000000000 = .illegal .reservedOpcode ∧
  decode 8 0x2010000000000000 = .illegal .reservedBits ∧
  decode 8 0x2000000000000001 = .illegal .reservedBits ∧
  decode 8 0x7000000200000000 = .illegal .badSelector ∧
  decode 8 0x9000000700000000 = .illegal .badSelector ∧
  decode 8 0x2000000800000000 = .illegal .badSelector

/-! ## The step (00_scope.md R6, 20_memory.md R55) -/

/-- A step takes the first word handed over, and if it spells an operation, the step is that operation's, with the word
gone from the inbox and its agent noted as the issuer. That words are handed over in the inbox is the model's form (log
entry 6), and so is the exception: an agent with a split operation in progress, whose operation waits (log entry 8). -/
def Obligations.StepRunsDecodedOperation : Prop :=
  ∀ (s : State) a w rest i, s.inbox = .op a w :: rest → ¬ busy s a →
    decode s.cfg.maxChannels w = .instr i →
    step s = exec i { s with inbox := rest, issuer := a }

/-- The host's way to hand over a word: the very next step runs the operation it spells, in any state. Handing words over
is the model's form (log entry 6). -/
def Obligations.PlacedWordRunsNext : Prop :=
  ∀ (s : State) (w : Nat) i, decode s.cfg.maxChannels (BitVec.ofNat 64 w) = .instr i →
    step (s.withFetchWord 64 w) = exec i { s with issuer := freeAgent s }

/-- From a word that spells no operation on, a run is refused with that reason and word, however long it goes on. That
a refused run has no state after it is the model's choice (log entry 3). -/
def Obligations.IllegalWordEndsTheRun : Prop :=
  ∀ (s : State) a w rest r, s.inbox = .op a w :: rest → ¬ busy s a →
    decode s.cfg.maxChannels w = .illegal r →
    ∀ k, Host.Core.run core (k + 1) s = .refused (.illegal r w)

/-- An agent whose split operation is in progress issues nothing else: its next operation waits, first in line, while it
takes a micro-step (R88, R114). That the operation handed over stays in line is the model's choice (log entry 8). A
micro-step of an agent, taken as an event of its own, is that of its CLRALL or of its STSET in progress; that CLRALL goes
first, and that an agent with neither changes nothing, is the model's choice (log entry 10). -/
def Obligations.BusyAgentWaits : Prop :=
  (∀ (s : State) a w rest, s.inbox = .op a w :: rest → busy s a →
    ∃ t, step s = .next t ∧ t = microStep s a ∧ t.inbox = s.inbox ∧
      t.clrPending.length + t.descPending.length + 1 = s.clrPending.length + s.descPending.length) ∧
  (∀ (s : State) a rest, s.inbox = .micro a :: rest → step s = .next (microStep { s with inbox := rest } a)) ∧
  ∀ (s : State) a,
    (clearing s a → microStep s a = s.clrMicro) ∧
    (¬ clearing s a → describing s a → microStep s a = s.descMicro) ∧
    (¬ busy s a → microStep s a = s)

/-! ## Edge capture (40_capture.md) -/

/-- R80: CAPEN sets CAP_EN[l] and nothing else; on an enabled line it changes nothing; no operation clears CAP_EN. -/
def Obligations.CapenEnablesLine : Prop :=
  (∀ (s : State) l, Inv s → l < s.cfg.maxChannels →
    encode (.capen l) = wordOf 0x1 0 (BitVec.ofNat 8 l) 0 ∧
    ∃ t, exec (.capen l) s = .next t ∧ t.record l = { s.record l with en := true } ∧ OnlyRecord l s t ∧
      ((s.record l).en = true → t = s)) ∧
  (∀ i (s t : State) k, exec i s = .next t → (s.record k).en = true → (t.record k).en = true)

/-- R81: TBADV advances TB modulo 2^32 and changes nothing else, and a longer time is a sequence of TBADV. -/
def Obligations.TimebaseAdvances : Prop :=
  (∀ d, encode (.tbadv d) = wordOf 0x6 0 0 d) ∧
  (∀ (s : State) d, ∃ t, exec (.tbadv d) s = .next t ∧
    t.tb.toNat = (s.tb.toNat + d.toNat) % 2 ^ 32 ∧ { t with tb := s.tb } = s ∧ (d = 0 → t = s)) ∧
  (∀ (s : State) (ds : List U32), ∃ t, runOps (ds.map Instr.tbadv) s = .next t ∧
    t.tb.toNat = (s.tb.toNat + (ds.map BitVec.toNat).sum) % 2 ^ 32 ∧ { t with tb := s.tb } = s)

/-- R82: a rising edge on an enabled line stores TB in RISE[l] and changes nothing else; on a line not enabled nothing
changes. -/
def Obligations.RisingEdgeStoresTimebase : Prop :=
  ∀ (s : State) l, Inv s → l < s.cfg.maxChannels →
    encode (.capr l) = wordOf 0x2 0 (BitVec.ofNat 8 l) 0 ∧
    ∃ t, exec (.capr l) s = .next t ∧ OnlyRecord l s t ∧
      ((s.record l).en = true → t.record l = { s.record l with rise := s.tb }) ∧
      ((s.record l).en = false → t = s)

/-- R83, R84: a falling edge on an enabled line writes the exact difference TB - RISE[l] when TB >= RISE[l] (0 when they
are equal), and nothing when TB is less; it changes nothing else, and nothing at all on a line not enabled. -/
def Obligations.FallingEdgeMeasuresWidth : Prop :=
  ∀ (s : State) l, Inv s → l < s.cfg.maxChannels →
    encode (.capf l) = wordOf 0x3 0 (BitVec.ofNat 8 l) 0 ∧
    ∃ t, exec (.capf l) s = .next t ∧ OnlyRecord l s t ∧
      ((s.record l).en = true → (s.record l).rise.toNat ≤ s.tb.toNat →
        t.record l = { s.record l with width := s.tb - (s.record l).rise } ∧
        (t.record l).width.toNat = s.tb.toNat - (s.record l).rise.toNat) ∧
      ((s.record l).en = true → s.tb = (s.record l).rise → (t.record l).width = 0) ∧
      ((s.record l).en = true → (s.record l).rise = 0 → (t.record l).width = s.tb) ∧
      (s.tb.toNat < (s.record l).rise.toNat → t = s) ∧
      ((s.record l).en = false → t = s)

/-- R85, R94: an edge is never refused, never waits and emits no event, in any state; on a line not enabled it changes
nothing. -/
def Obligations.EdgesCompleteSilently : Prop :=
  ∀ (s : State) l i, l < s.cfg.maxChannels → i = .capr l ∨ i = .capf l →
    ∃ t, exec i s = .next t ∧ t.events = s.events ∧ ((s.record l).en = false → t = s)

/-- R86: RDCLR responds with WIDTH[l] and clears it in one step, and changes nothing else; on a line not enabled it
responds with 0, since only an accepted CAPF writes a width that is not 0. -/
def Obligations.ReadAndClearReturnsWidth : Prop :=
  ∀ (s : State) l, Inv s → l < s.cfg.maxChannels →
    encode (.rdclr l) = wordOf 0x4 0 (BitVec.ofNat 8 l) 0 ∧
    ∃ t, exec (.rdclr l) s = .next t ∧
      t.events = s.events ++ [.rdclrResp l (s.record l).width] ∧
      t.record l = { s.record l with width := 0 } ∧
      (∀ k, k ≠ l → t.record k = s.record k) ∧
      { t with caps := s.caps, events := s.events } = s ∧
      ((s.record l).en = false → (s.record l).width = 0)

/-- R87: in atomic mode CLRALL zeroes RISE and WIDTH of every line in one step and changes nothing else, so that a
falling edge that comes next measures from 0. -/
def Obligations.ClearAllAtomic : Prop :=
  encode .clrall = wordOf 0x5 0 0 0 ∧
  ∀ s : State, Inv s → s.cfg.clearAllMode = .atomic →
    ∃ t, exec .clrall s = .next t ∧
      (∀ l, t.record l = { s.record l with rise := 0, width := 0 }) ∧
      t.caps.length = s.caps.length ∧ { t with caps := s.caps } = s ∧
      ∀ l, l < s.cfg.maxChannels → (s.record l).en = true →
        ∃ u, exec (.capf l) t = .next u ∧ (u.record l).width = s.tb

/-- R88, its first step: in per_field mode CLRALL makes every (line, field) pair pending, once each, notes its issuer and
writes nothing else. That it does so too while another agent's CLRALL is in progress, whose pending set it replaces, is
the model's choice (log entry 9). -/
def Obligations.PerFieldClearBegins : Prop :=
  ∀ s : State, s.cfg.clearAllMode = .perField →
    ∃ t, exec .clrall s = .next t ∧
      (∀ l f, (l, f) ∈ t.clrPending ↔ l < s.cfg.maxChannels) ∧ t.clrPending.Nodup ∧ t.clrBy = s.issuer ∧
      { t with clrPending := s.clrPending, clrBy := s.clrBy } = s

/-- R88, one micro-step: some pending pair's field becomes 0 and the pair is no longer pending; every other field of
every record, and every field of the state but the count of draws, is unchanged. -/
def Obligations.ClearMicroStepClearsOnePair : Prop :=
  ∀ s : State, Inv s → s.clrPending ≠ [] →
    ∃ l f, (l, f) ∈ s.clrPending ∧
      s.clrMicro.record l =
        (match f with
          | .rise => { s.record l with rise := 0 }
          | .width => { s.record l with width := 0 }) ∧
      (∀ k, k ≠ l → s.clrMicro.record k = s.record k) ∧
      (∀ p, p ∈ s.clrMicro.clrPending ↔ p ∈ s.clrPending ∧ p ≠ (l, f)) ∧
      { s.clrMicro with caps := s.caps, clrPending := s.clrPending, draws := s.draws } = s

/-- R88: when no other operation falls between its micro-steps, a per_field CLRALL ends in the state of the atomic one,
in whatever order the draws clear the pairs. Where another agent's CLRALL is in progress, this rests on the model's
choice that it is replaced (log entry 9), and where the issuer has a STSET in progress, on the choice that CLRALL goes
first (log entry 10). -/
def Obligations.UninterruptedClearEqualsAtomic : Prop :=
  ∀ s b : State, Inv s → s.cfg.clearAllMode = .perField → exec .clrall s = .next b →
    (fun u => microStep u s.issuer)^[2 * s.cfg.maxChannels] b =
      { s with clrPending := [], clrBy := s.issuer, draws := s.draws + 2 * s.cfg.maxChannels }.clearTable

/-- R89: what a pulse of true length T that rose at timestamp r is reported as: exactly, dropped when the timebase
wrapped during it, and modulo 2^32 or dropped when it lasted 2^32 or longer. A width is written only when TB >= RISE[l]. -/
def Obligations.PulseReportedExactlyOrDropped : Prop :=
  ∀ (s : State) l (T : Nat), Inv s → l < s.cfg.maxChannels → (s.record l).en = true →
    s.tb.toNat = ((s.record l).rise.toNat + T) % 2 ^ 32 →
    ∃ t, exec (.capf l) s = .next t ∧
      (T < 2 ^ 32 → (s.record l).rise.toNat + T < 2 ^ 32 → (t.record l).width.toNat = T) ∧
      (T < 2 ^ 32 → 2 ^ 32 ≤ (s.record l).rise.toNat + T → t = s) ∧
      (2 ^ 32 ≤ T → (s.record l).rise.toNat ≤ s.tb.toNat → (t.record l).width.toNat = T % 2 ^ 32) ∧
      (2 ^ 32 ≤ T → s.tb.toNat < (s.record l).rise.toNat → t = s) ∧
      ((t.record l).width ≠ (s.record l).width → (s.record l).rise.toNat ≤ s.tb.toNat)

/-- R90: after a RDCLR l, or from any state whose WIDTH[l] is 0, a RDCLR l responds with 0 if no CAPF l was accepted in
between, whatever other operations were. -/
def Obligations.SecondReadReturnsZero : Prop :=
  (∀ (s t u : State) l is, Inv s → exec (.rdclr l) s = .next t → runOps is t = .next u → ¬ acceptsCapf l is t →
    ∃ v, exec (.rdclr l) u = .next v ∧ v.events = u.events ++ [.rdclrResp l 0]) ∧
  (∀ (t u : State) l is, Inv t → l < t.cfg.maxChannels → (t.record l).width = 0 → runOps is t = .next u →
    ¬ acceptsCapf l is t → ∃ v, exec (.rdclr l) u = .next v ∧ v.events = u.events ++ [.rdclrResp l 0])

/-- R91: with no CAPR l since RISE[l] was 0 (as reset and CLRALL leave it), a falling edge on an enabled line measures
from 0: the wrap guard never fires and the width is TB. -/
def Obligations.FallingEdgeWithoutRisingEdge : Prop :=
  ∀ (s t : State) l is, Inv s → l < s.cfg.maxChannels → (s.record l).rise = 0 → Instr.capr l ∉ is →
    runOps is s = .next t → (t.record l).en = true →
    ∃ u, exec (.capf l) t = .next u ∧ (u.record l).width = t.tb

/-- R92: of two CAPR l the later timestamp stays; of two CAPF l with no CAPR l (and no CLRALL) between, both compute from
the same RISE[l], and the later wins unless the wrap guard suppresses it. -/
def Obligations.RepeatedEdgesOfOneKind : Prop :=
  (∀ (s t u : State) l is, Inv s → l < s.cfg.maxChannels → exec (.capr l) s = .next t → runOps is t = .next u →
    (u.record l).en = true → ∃ v, exec (.capr l) u = .next v ∧ (v.record l).rise = u.tb) ∧
  (∀ (s t u : State) l is, Inv s → l < s.cfg.maxChannels → exec (.capf l) s = .next t → runOps is t = .next u →
    Instr.capr l ∉ is → Instr.clrall ∉ is → (u.record l).en = true →
    ∃ v, exec (.capf l) u = .next v ∧
      ((s.record l).rise.toNat ≤ u.tb.toNat →
        (v.record l).width.toNat = u.tb.toNat - (s.record l).rise.toNat) ∧
      (u.tb.toNat < (s.record l).rise.toNat → v = u))

/-- R95: CAPEN, CAPR, CAPF and RDCLR of line l write the record of line l only, and what they leave in it and respond
depends on that record only (and, for CAPR and CAPF, on TB); only CLRALL touches more than one record. -/
def Obligations.LinesAreIndependent : Prop :=
  (∀ (s s' : State) l i, i = .capen l ∨ i = .capr l ∨ i = .capf l ∨ i = .rdclr l →
    Inv s → Inv s' → l < s.cfg.maxChannels → l < s'.cfg.maxChannels →
    s.record l = s'.record l → (i = .capr l ∨ i = .capf l → s.tb = s'.tb) →
    ∃ t t', exec i s = .next t ∧ exec i s' = .next t' ∧ t.record l = t'.record l ∧
      (∀ k, k ≠ l → t.record k = s.record k) ∧ { t with caps := s.caps, events := s.events } = s ∧
      ∃ es, t.events = s.events ++ es ∧ t'.events = s'.events ++ es) ∧
  (∀ i (s t : State) k k', i ≠ .clrall → exec i s = .next t →
    t.record k ≠ s.record k → t.record k' ≠ s.record k' → k = k')

/-- Of all steps, only an accepted CAPF l makes WIDTH[l] other than 0 (R86). -/
def Obligations.WidthComesFromAcceptedFallingEdge : Prop :=
  ∀ (s t : State) l, Inv s → step s = .next t → (s.record l).width = 0 → (t.record l).width ≠ 0 →
    Accepts s l ∧ ∃ a w, (takeEvent s).1 = .op a w ∧ decode s.cfg.maxChannels w = .instr (.capf l)

/-! ## PWM output (41_pwm_output.md) -/

/-- R99: PWMSET stores every width as given, widens the envelope to take it in, and changes nothing else; the value the
register already holds changes nothing. -/
def Obligations.PwmsetStoresWidth : Prop :=
  (∀ w, encode (.pwmset .throttle w) = wordOf 0x7 0 0 w ∧ encode (.pwmset .steering w) = wordOf 0x7 0 1 w) ∧
  ∀ (s : State) c w, ∃ t, exec (.pwmset c w) s = .next t ∧
    (t.pwm c).w = w ∧
    (t.pwm c).lo.toInt = min (s.pwm c).lo.toInt w.toInt ∧
    (t.pwm c).hi.toInt = max (s.pwm c).hi.toInt w.toInt ∧
    (∀ c', c' ≠ c → t.pwm c' = s.pwm c') ∧
    t.setPwm c (s.pwm c) = s ∧
    (EnvelopeHolds (s.pwm c) → w = (s.pwm c).w → t = s)

/-- R103: PWMPER emits one pulse, its high time between the least and the greatest width held when both lie in
0..PWM_PERIOD_US and anywhere in 0..PWM_PERIOD_US otherwise, starts the next envelope at PWM_W[c], and changes nothing
else. -/
def Obligations.PwmperEmitsOnePulse : Prop :=
  encode (.pwmper .throttle) = wordOf 0x8 0 0 0 ∧ encode (.pwmper .steering) = wordOf 0x8 0 1 0 ∧
  ∀ (s : State) c, EnvelopeHolds (s.pwm c) →
    ∃ (t : State) (h : Nat), exec (.pwmper c) s = .next t ∧ t.events = s.events ++ [.pwmPulse c h] ∧
      (if 0 ≤ (s.pwm c).lo.toInt ∧ (s.pwm c).hi.toInt ≤ s.cfg.pwmPeriodUs then
        (s.pwm c).lo.toInt ≤ h ∧ (h : Int) ≤ (s.pwm c).hi.toInt
      else h ≤ s.cfg.pwmPeriodUs) ∧
      (t.pwm c).w = (s.pwm c).w ∧ (t.pwm c).lo = (s.pwm c).w ∧ (t.pwm c).hi = (s.pwm c).w ∧
      (∀ c', c' ≠ c → t.pwm c' = s.pwm c') ∧
      { t.setPwm c (s.pwm c) with events := s.events, draws := s.draws } = s

/-- R105: after a PWMPER c, with a width in range and no PWMSET on c in between, the next PWMPER c emits exactly that
width. -/
def Obligations.SteadyStatePulse : Prop :=
  ∀ (s t u : State) c is, 0 ≤ (s.pwm c).w.toInt → (s.pwm c).w.toInt ≤ s.cfg.pwmPeriodUs →
    exec (.pwmper c) s = .next t → runOps is t = .next u → (∀ w, Instr.pwmset c w ∉ is) →
    ∃ v, exec (.pwmper c) u = .next v ∧ v.events = u.events ++ [.pwmPulse c (s.pwm c).w.toInt.toNat]

/-- R106: the period in progress at a PWMSET has a high time between the old and the new width, and every later one
shows the new width exactly, when both are in range and no other PWMSET on c comes. -/
def Obligations.NewWidthFromTheNextPeriodOn : Prop :=
  ∀ (s s1 s2 : State) c (old new : S32) is,
    s.pwm c = ⟨old, old, old⟩ → 0 ≤ old.toInt → old.toInt ≤ s.cfg.pwmPeriodUs →
    0 ≤ new.toInt → new.toInt ≤ s.cfg.pwmPeriodUs →
    exec (.pwmset c new) s = .next s1 → runOps is s1 = .next s2 →
    (∀ w, Instr.pwmset c w ∉ is) → Instr.pwmper c ∉ is →
    ∃ (s3 : State) (h : Nat), exec (.pwmper c) s2 = .next s3 ∧ s3.events = s2.events ++ [.pwmPulse c h] ∧
      min old.toInt new.toInt ≤ h ∧ (h : Int) ≤ max old.toInt new.toInt ∧
      ∀ is' s4, runOps is' s3 = .next s4 → (∀ w, Instr.pwmset c w ∉ is') →
        ∃ s5, exec (.pwmper c) s4 = .next s5 ∧ s5.events = s4.events ++ [.pwmPulse c new.toInt.toNat]

/-- R107: PWMSET and PWMPER of one channel leave the other alone, and what they leave and emit depends on their own
channel's registers, the period and the draw only. -/
def Obligations.ChannelsAreIndependent : Prop :=
  ∀ (s s' : State) c i, (∃ w, i = .pwmset c w) ∨ i = .pwmper c →
    s.pwm c = s'.pwm c → s.cfg.pwmPeriodUs = s'.cfg.pwmPeriodUs → s.draws = s'.draws →
    ∃ t t', exec i s = .next t ∧ exec i s' = .next t' ∧ t.pwm c = t'.pwm c ∧
      (∀ c', c' ≠ c → t.pwm c' = s.pwm c') ∧
      ∃ es, t.events = s.events ++ es ∧ t'.events = s'.events ++ es

/-- R28: the envelope takes in the width register after every step from a state in which it does. -/
def Obligations.EnvelopeTakesInWidth : Prop :=
  ∀ s t : State, (∀ c, EnvelopeHolds (s.pwm c)) → step s = .next t → ∀ c, EnvelopeHolds (t.pwm c)

/-! ## Status and LED (42_led.md) -/

/-- R111: the encoder's table, row by row. -/
def Obligations.EncoderTable : Prop :=
  ledTable .disconnected = ⟨255, 0, 0, 0x55⟩ ∧
  ledTable .rxError = ⟨255, 0, 0, 0x33⟩ ∧
  ledTable .calibrating = ⟨255, 255, 255, 0x55⟩ ∧
  ledTable .hostInit = ⟨255, 0, 0, 0x18⟩ ∧
  ledTable .hostUserMode = ⟨0, 255, 0, 0x18⟩ ∧
  ledTable .hostLocalMode = ⟨0, 0, 255, 0x18⟩ ∧
  ledTable .hostDisarmed = ⟨0, 255, 0, 0x55⟩

/-- R112: in atomic mode a STSET of another status stores it and rewrites DESC at once, changing nothing else; a STSET of
the same status changes nothing; no two statuses have the same descriptor. -/
def Obligations.StatusTransitionAtomic : Prop :=
  (∀ st, encode (.stset st) = wordOf 0x9 0 (BitVec.ofNat 8 (statusCode st)) 0) ∧
  (∀ (s : State) st, s.cfg.ledDescMode = .atomic →
    ∃ t, exec (.stset st) s = .next t ∧
      (st ≠ s.status → t.status = st ∧ t.desc = ledTable st) ∧
      (st = s.status → t = s) ∧
      { t with status := s.status, desc := s.desc } = s) ∧
  (∀ a b, ledTable a = ledTable b → a = b)

/-- R113: a STSET of the status that STATUS holds leaves every field unchanged, in either mode. -/
def Obligations.SameStatusChangesNothing : Prop :=
  ∀ (s : State) st, st = s.status → exec (.stset st) s = .next s

/-- R114, its first step: in per_field mode a STSET of another status stores it, makes the four descriptor fields
pending with their new values, notes its issuer and changes nothing else. That it does so too while another STSET is in
progress, whose pending set it replaces, is the model's choice (log entry 9). -/
def Obligations.PerFieldTransitionBegins : Prop :=
  ∀ (s : State) st, s.cfg.ledDescMode = .perField → st ≠ s.status →
    ∃ t, exec (.stset st) s = .next t ∧ t.status = st ∧
      (∀ f v, (f, v) ∈ t.descPending ↔ v = descField (ledTable st) f) ∧
      (t.descPending.map Prod.fst).Nodup ∧ t.descBy = s.issuer ∧
      { t with status := s.status, descPending := s.descPending, descBy := s.descBy } = s

/-- R114, one micro-step: some pending field of DESC becomes its new value and is no longer pending; every other field of
DESC, those still pending among them, keeps its value, and so does every field of the state but the count of draws. With
no other operation between its micro-steps, a per_field STSET ends in the state of the atomic one, in whatever order the
draws write the fields. Where another STSET is in progress when it begins, this rests on the model's choice that its
pending set is replaced (log entry 9). -/
def Obligations.UninterruptedTransitionEqualsAtomic : Prop :=
  (∀ s : State, Inv s → s.descPending ≠ [] →
    ∃ f v, (f, v) ∈ s.descPending ∧
      descField s.descMicro.desc f = v ∧
      (∀ f', f' ≠ f → descField s.descMicro.desc f' = descField s.desc f') ∧
      (∀ p, p ∈ s.descMicro.descPending ↔ p ∈ s.descPending ∧ p ≠ (f, v)) ∧
      { s.descMicro with desc := s.desc, descPending := s.descPending, draws := s.draws } = s) ∧
  ∀ (s b : State) st, s.cfg.ledDescMode = .perField → st ≠ s.status → ¬ clearing s s.issuer →
    exec (.stset st) s = .next b →
    (fun u => microStep u s.issuer)^[4] b =
      { s with status := st, desc := ledTable st, descPending := [], descBy := s.issuer, draws := s.draws + 4 }

/-- R115, R116, R117, R125: a tick of the running scheduler writes the descriptor's colour when the pattern bit of slot PHASE
is 1 and black when it is 0, emits exactly one LedWrite of it, advances PHASE modulo 8, and changes nothing else. The
bit is 7 - PHASE in msb_first order and PHASE in lsb_first order. A tick of the scheduler that has not been started
changes nothing and emits nothing. -/
def Obligations.TickWritesSlotColour : Prop :=
  encode .ledtick = wordOf 0xB 0 0 0 ∧
  (∀ s : State, s.ledRun = false → exec .ledtick s = .next s) ∧
  ∀ s : State, s.ledRun = true →
    ∃ t, exec .ledtick s = .next t ∧
      t.ledOut =
        (if s.desc.pat.getLsbD (match s.cfg.ledBitOrder with
            | .msbFirst => 7 - s.phase.toNat
            | .lsbFirst => s.phase.toNat) then ⟨s.desc.r, s.desc.g, s.desc.b⟩ else ⟨0, 0, 0⟩) ∧
      t.events = s.events ++ [.ledWrite t.ledOut.r t.ledOut.g t.ledOut.b] ∧
      t.phase.toNat = (s.phase.toNat + 1) % 8 ∧
      { t with ledOut := s.ledOut, events := s.events, phase := s.phase } = s

/-- R122: the slots in which each pattern shows its colour, in each bit order, and which statuses use it. -/
def Obligations.SlotsOfEachPattern : Prop :=
  (List.finRange 8).filter (fun p => patternBit .msbFirst 0x55 (BitVec.ofFin p)) = [1, 3, 5, 7] ∧
  (List.finRange 8).filter (fun p => patternBit .lsbFirst 0x55 (BitVec.ofFin p)) = [0, 2, 4, 6] ∧
  (List.finRange 8).filter (fun p => patternBit .msbFirst 0x33 (BitVec.ofFin p)) = [2, 3, 6, 7] ∧
  (List.finRange 8).filter (fun p => patternBit .lsbFirst 0x33 (BitVec.ofFin p)) = [0, 1, 4, 5] ∧
  (List.finRange 8).filter (fun p => patternBit .msbFirst 0x18 (BitVec.ofFin p)) = [3, 4] ∧
  (List.finRange 8).filter (fun p => patternBit .lsbFirst 0x18 (BitVec.ofFin p)) = [3, 4] ∧
  (∀ st, (ledTable st).pat = 0x55 ↔ st = .disconnected ∨ st = .calibrating ∨ st = .hostDisarmed) ∧
  (∀ st, (ledTable st).pat = 0x33 ↔ st = .rxError) ∧
  (∀ st, (ledTable st).pat = 0x18 ↔ st = .hostInit ∨ st = .hostUserMode ∨ st = .hostLocalMode)

/-- R126: eight ticks of the running scheduler write the slots PHASE, PHASE+1, ..., PHASE+7 modulo 8 and come back to
PHASE, so that the next eight write the same. -/
def Obligations.EightTicksAreOnePattern : Prop :=
  ∀ s : State, s.ledRun = true →
    ∃ t es, runOps (List.replicate 8 .ledtick) s = .next t ∧ t.events = s.events ++ es ∧
      es = (List.range 8).map (fun k =>
        let c := slotColour s.cfg.ledBitOrder s.desc (s.phase + BitVec.ofNat 3 k)
        OutEvent.ledWrite c.r c.g c.b) ∧
      t.phase = s.phase ∧ t.desc = s.desc ∧ t.ledRun = true ∧
      ∃ u, runOps (List.replicate 8 .ledtick) t = .next u ∧ u.events = t.events ++ es

/-- R120: LEDSTART sets LED_RUN and changes nothing else, PHASE among it. -/
def Obligations.LedstartStartsScheduler : Prop :=
  encode .ledstart = wordOf 0xA 0 0 0 ∧
  ∀ s : State, ∃ t, exec .ledstart s = .next t ∧ t.ledRun = true ∧ { t with ledRun := s.ledRun } = s ∧
    (s.ledRun = true → t = s)

/-- R121: LEDBLANK writes black, emits one LedWrite of it and changes nothing else; the next tick of a running scheduler
overwrites it. -/
def Obligations.LedblankWritesBlack : Prop :=
  encode .ledblank = wordOf 0xC 0 0 0 ∧
  ∀ s : State, ∃ t, exec .ledblank s = .next t ∧ t.ledOut = ⟨0, 0, 0⟩ ∧
    t.events = s.events ++ [.ledWrite 0 0 0] ∧ { t with ledOut := s.ledOut, events := s.events } = s ∧
    (s.ledRun = true → ∃ u, exec .ledtick t = .next u ∧
      u.ledOut = slotColour s.cfg.ledBitOrder s.desc s.phase)

/-- R118: after a STSET that changes the status, LED_OUT and PHASE keep their values until the next LEDTICK (a LEDBLANK
apart), in either mode, and that tick shows the descriptor at the current PHASE: the new one, in atomic mode. -/
def Obligations.StatusShownAtNextTick : Prop :=
  ∀ (s t u : State) st is, s.ledRun = true → st ≠ s.status →
    exec (.stset st) s = .next t → runOps is t = .next u →
    Instr.ledtick ∉ is → Instr.ledblank ∉ is → (∀ st', Instr.stset st' ∉ is) →
    u.ledOut = s.ledOut ∧ u.phase = s.phase ∧
    ∃ v, exec .ledtick u = .next v ∧ v.ledOut = slotColour s.cfg.ledBitOrder u.desc s.phase ∧
      (s.cfg.ledDescMode = .atomic → u.desc = ledTable st)

/-- R119: STSET, its micro-steps included, changes neither PHASE nor LED_RUN, and LEDTICK neither STATUS nor DESC. -/
def Obligations.SchedulerIndependentOfStatus : Prop :=
  (∀ (s : State) st, ∃ t, exec (.stset st) s = .next t ∧ t.phase = s.phase ∧ t.ledRun = s.ledRun) ∧
  (∀ s : State, s.descMicro.phase = s.phase ∧ s.descMicro.ledRun = s.ledRun) ∧
  (∀ s : State, ∃ t, exec .ledtick s = .next t ∧ t.status = s.status ∧ t.desc = s.desc ∧
    t.descPending = s.descPending)

/-- R127: of all steps, only a STSET (and the external reset, R167) changes STATUS, and it sets the code it names. -/
def Obligations.OnlyStsetChangesStatus : Prop :=
  ∀ s t : State, step s = .next t → t.status ≠ s.status →
    (∃ a w, (takeEvent s).1 = .op a w ∧ decode s.cfg.maxChannels w = .instr (.stset t.status)) ∨
    ((takeEvent s).1 = .reset ∧ t.status = .disconnected)

/-- R128: in atomic mode, STSET st followed by any number of ticks leaves DESC = TABLE(st); in either mode, when no STSET
is in progress any number of ticks leaves DESC = TABLE(STATUS). -/
def Obligations.TicksKeepDescriptor : Prop :=
  (∀ (s : State) st n, Inv s → s.cfg.ledDescMode = .atomic →
    ∃ t, runOps (.stset st :: List.replicate n .ledtick) s = .next t ∧ t.desc = ledTable st ∧ t.status = st) ∧
  (∀ (s : State) n, Inv s → s.descPending = [] →
    ∃ t, runOps (List.replicate n .ledtick) s = .next t ∧ t.desc = ledTable s.status ∧ t.status = s.status)

/-! ## The whole machine -/

/-- R79, R98: the capture operations change TB, the capture records and a clear's pending set only, and none but RDCLR
emits an event; no operation but PWMSET and PWMPER changes the PWM registers, and they change nothing else. -/
def Obligations.FamiliesAreSeparate : Prop :=
  ∀ i (s t : State), exec i s = .next t →
    ((∃ l, i = .capen l ∨ i = .capr l ∨ i = .capf l ∨ i = .rdclr l) ∨ i = .clrall ∨ (∃ d, i = .tbadv d) →
      { t with tb := s.tb, caps := s.caps, clrPending := s.clrPending, clrBy := s.clrBy, events := s.events } = s ∧
      ((∀ l, i ≠ .rdclr l) → t.events = s.events)) ∧
    (t.throttle ≠ s.throttle ∨ t.steering ≠ s.steering → ∃ c, (∃ w, i = .pwmset c w) ∨ i = .pwmper c) ∧
    ((∃ c, (∃ w, i = .pwmset c w) ∨ i = .pwmper c) →
      { t with throttle := s.throttle, steering := s.steering, events := s.events, draws := s.draws } = s)

/-- R40, the columns "written by": each field of the state changes in no operation but those the table lists. -/
def Obligations.FieldsWrittenOnlyByTheirOperations : Prop :=
  ∀ i (s t : State), exec i s = .next t →
    (t.tb ≠ s.tb → ∃ d, i = .tbadv d) ∧
    (∀ l, (t.record l).en ≠ (s.record l).en → i = .capen l) ∧
    (∀ l, (t.record l).rise ≠ (s.record l).rise → i = .capr l ∨ i = .clrall) ∧
    (∀ l, (t.record l).width ≠ (s.record l).width → i = .capf l ∨ i = .rdclr l ∨ i = .clrall) ∧
    (∀ c, (t.pwm c).w ≠ (s.pwm c).w → ∃ w, i = .pwmset c w) ∧
    (∀ c, (t.pwm c).lo ≠ (s.pwm c).lo → (∃ w, i = .pwmset c w) ∨ i = .pwmper c) ∧
    (∀ c, (t.pwm c).hi ≠ (s.pwm c).hi → (∃ w, i = .pwmset c w) ∨ i = .pwmper c) ∧
    (t.status ≠ s.status → ∃ st, i = .stset st) ∧
    (t.desc ≠ s.desc → ∃ st, i = .stset st) ∧
    (t.phase ≠ s.phase → i = .ledtick) ∧
    (t.ledRun ≠ s.ledRun → i = .ledstart) ∧
    (t.ledOut ≠ s.ledOut → i = .ledtick ∨ i = .ledblank)

/-- No step changes the parameters of R10, whatever event it takes. That a state carries them is the model's choice (log
entry 1). -/
def Obligations.ParametersNeverChange : Prop :=
  ∀ s t : State, step s = .next t → t.cfg = s.cfg

/-- The invariant holds right after reset, for every legal choice of parameters. -/
def Obligations.ResetMeetsInvariant : Prop :=
  Inv State.reset ∧ ∀ c n, c.Legal → Inv (State.resetAt c n)

/-- Every step keeps the invariant: the table's size (R19), the PWM envelope (R28), the descriptor as the encoder's or
pending (R32), the pending sets (R43), and all-zero records on lines never enabled (R85, R86). -/
def Obligations.StepKeepsInvariant : Prop :=
  ∀ s t : State, Inv s → step s = .next t → Inv t

/-- R149: no operation can fail once decoded: a word the decoder accepts leads to a next state, in every state. -/
def Obligations.DecodedOperationNeverFails : Prop :=
  ∀ (s : State) w i, decode s.cfg.maxChannels w = .instr i → ∃ t, exec i s = .next t ∧ performWord w s = .next t

/-- While the agents issue only operations of their own (R7), no event is refused. For an operation of an agent whose
split operation is in progress this rests on the model's choice that it waits (log entry 8), and for a micro-step of an
agent with none on the choice that it changes nothing (log entry 10). -/
def Obligations.EnvironmentIsNeverRefused : Prop :=
  ∀ (s : State) e, FromEnvironment s.cfg.maxChannels e → ∃ t, performEvent e s = .next t

/-- R168: the state right after reset, whatever the draws and the parameters are. -/
def Obligations.StateAfterReset : Prop :=
  ResetValues State.reset.cfg State.reset ∧ ∀ c n, ResetValues c (State.resetAt c n)

/-- R167: the external reset, taken in a step, sets every element to its reset value with draws not made before, abandons
a split operation in progress, and erases no event already emitted. That each draw has a number of its own, counted in
`draws`, is the model's form of a free value (log entry 2). -/
def Obligations.ExternalResetRestoresResetState : Prop :=
  ∀ (s : State) rest, s.inbox = .reset :: rest →
    ∃ t, step s = .next t ∧ ResetValues s.cfg t ∧ t.events = s.events ∧
      t.tb = resetTb s.draws ∧ t.throttle = resetPwm (s.draws + 1) ∧ t.steering = resetPwm (s.draws + 2) ∧
      t.ledOut = resetLedOut (s.draws + 3) ∧ s.draws + 6 ≤ t.draws

/-- R32: when no per_field STSET is in progress, DESC = TABLE(STATUS). -/
def Obligations.SettledDescriptorIsTheEncoders : Prop :=
  ∀ s t : State, Inv s → step s = .next t → t.descPending = [] → t.desc = ledTable t.status

/-! ## The reference host (43_host_usage.md) -/

/-- R132, R133, R134: a line that parses updates the command state and issues STSET of its status word, if it is one, and
then both PWMSET, throttle first; the four status words, letter for letter, and the status of each. -/
def Obligations.ParsedLineIssuesCommands : Prop :=
  (∀ word st, statusWord word = some st ↔
    (word = "init".toList.map ascii ∧ st = .hostInit) ∨
    (word = "disarmed".toList.map ascii ∧ st = .hostDisarmed) ∨
    (word = "user".toList.map ascii ∧ st = .hostUserMode) ∨
    (word = "local".toList.map ascii ∧ st = .hostLocalMode)) ∧
  ∀ (c : Config) (line word : List Byte) (cmd : HostCommand) t s,
    parseLine (line.take c.hostLineMax) = some (t, s, word) →
    (∀ st, statusWord word = some st →
      commandDuty c (some line) cmd = (⟨t, s⟩, [.stset st, .pwmset .throttle t, .pwmset .steering s])) ∧
    (statusWord word = none →
      commandDuty c (some line) cmd = (⟨t, s⟩, [.pwmset .throttle t, .pwmset .steering s]))

/-- R140, R142: a throttle width of 0 is signal loss whatever the other widths: the sentinel line, the timestamp and
seven fields of -1, and a STSET rx-error among the operations issued. -/
def Obligations.SignalLossSendsSentinel : Prop :=
  ∀ (c : Config) clock v sl sr, v.throttle = 0 →
    (telemetryReport c clock v sl sr).1 =
      (Nat.toDigits 10 (clock % c.telemTsMod)).map ascii ++ ",-1,-1,-1,-1,-1,-1,-1\n".toList.map ascii ∧
    .stset .rxError ∈ (telemetryReport c clock v sl sr).2

/-- R77, R170: boot's operations and their order, and TELEMREAD's; they are operations of the unit, on five different
lines, for every legal choice of parameters. -/
def Obligations.BootSequenceIsWellFormed : Prop :=
  ∀ c : Config, c.Legal →
    (∀ i ∈ bootSequence c, i.WellFormed c.maxChannels) ∧
    bootSequence c =
      [.capen (lineOf c .throttleIn), .capen (lineOf c .steeringIn), .capen (lineOf c .ch5In),
        .capen (lineOf c .ch6In), .capen (lineOf c .speedometerIn),
        .pwmset .throttle 1500, .pwmset .steering 1500, .ledblank, .stset .disconnected, .ledstart] ∧
    telemRead c =
      [.rdclr (lineOf c .throttleIn), .rdclr (lineOf c .steeringIn), .rdclr (lineOf c .ch5In),
        .rdclr (lineOf c .ch6In), .rdclr (lineOf c .speedometerIn)] ∧
    (monitored.map (lineOf c)).Nodup ∧ ∀ i ∈ telemRead c, i.WellFormed c.maxChannels
end

