-- ==== Sys2Proof/Laws/Config.lean ====
section
/-! SUPPORT. The parameters of the unit after reset are legal, whatever the open choices are (00_scope.md R10). -/

namespace Sys2Proof.Machine

/-- `k` picks from at least `k` lines are `k` lines. -/
theorem pickLines_length (choice : Nat → Nat) (k : Nat) (avail : List Nat) :
    (pickLines choice k avail).length = k := by
  induction k generalizing avail with
  | zero => rfl
  | succ k ih => simp [pickLines, ih]

/-- Every pick is one of the lines there are. -/
theorem pickLines_subset (choice : Nat → Nat) (k : Nat) (avail : List Nat) (h : k ≤ avail.length) :
    ∀ l ∈ pickLines choice k avail, l ∈ avail := by
  induction k generalizing avail with
  | zero => simp [pickLines]
  | succ k ih =>
    intro l hl
    have hi : choice k % avail.length < avail.length := Nat.mod_lt _ (by omega)
    simp only [pickLines, List.mem_cons] at hl
    rcases hl with rfl | hl
    · simp [List.getD, hi]
    · refine List.mem_of_mem_eraseIdx (ih (avail.eraseIdx _) ?_ l hl)
      rw [List.length_eraseIdx_of_lt hi]
      omega

/-- No line is picked twice. -/
theorem pickLines_nodup (choice : Nat → Nat) (k : Nat) (avail : List Nat) (h : k ≤ avail.length)
    (nd : avail.Nodup) : (pickLines choice k avail).Nodup := by
  induction k generalizing avail with
  | zero => simp [pickLines]
  | succ k ih =>
    have hi : choice k % avail.length < avail.length := Nat.mod_lt _ (by omega)
    have hlen : k ≤ (avail.eraseIdx (choice k % avail.length)).length := by
      rw [List.length_eraseIdx_of_lt hi]
      omega
    simp only [pickLines, List.nodup_cons]
    refine ⟨fun hm => ?_, ih _ hlen (nd.sublist (List.eraseIdx_sublist ..))⟩
    have hm := pickLines_subset choice k _ hlen _ hm
    rw [List.mem_eraseIdx_iff_getElem] at hm
    obtain ⟨j, hj, hne, he⟩ := hm
    have : avail[j] = avail[choice k % avail.length] := by simpa [List.getD, hi] using he
    exact hne ((nd.getElem_inj_iff).mp this)

/-- The unit after reset has legal parameters (R10). -/
theorem unitConfig_legal : unitConfig.Legal := by
  have hlt := Config.unitExtraChannels.isLt
  have hr : 5 ≤ (List.range (Config.unitExtraChannels.val + 5)).length := by simp
  refine ⟨by simp [unitConfig], by simp only [unitConfig]; omega, pickLines_length .., ?_, ?_, ?_⟩
  · exact pickLines_nodup _ _ _ hr List.nodup_range
  · intro l hl
    have := pickLines_subset _ _ _ hr l hl
    simpa [unitConfig] using this
  · refine ⟨?_, ?_, ?_, ?_, ?_, ?_⟩ <;> simp [unitConfig]

/-- The parameters of the spec's vectors are legal (R10). -/
theorem vectors_legal : Config.vectors.Legal := by decide

end Sys2Proof.Machine
end

