-- ==== Sys2Proof/Laws/State.lean ====
section
/-! SUPPORT. What each shared update of the state does to each field: one lemma per field per update. -/

namespace Sys2Proof.Machine

/-! ## setRecord -/

@[simp] theorem setRecord_cfg (s : State) (l : Nat) (r : CaptureRecord) : (s.setRecord l r).cfg = s.cfg := rfl
@[simp] theorem setRecord_tb (s : State) (l : Nat) (r : CaptureRecord) : (s.setRecord l r).tb = s.tb := rfl
@[simp] theorem setRecord_caps (s : State) (l : Nat) (r : CaptureRecord) : (s.setRecord l r).caps = s.caps.set l r := rfl
@[simp] theorem setRecord_throttle (s : State) (l : Nat) (r : CaptureRecord) : (s.setRecord l r).throttle = s.throttle := rfl
@[simp] theorem setRecord_steering (s : State) (l : Nat) (r : CaptureRecord) : (s.setRecord l r).steering = s.steering := rfl
@[simp] theorem setRecord_status (s : State) (l : Nat) (r : CaptureRecord) : (s.setRecord l r).status = s.status := rfl
@[simp] theorem setRecord_desc (s : State) (l : Nat) (r : CaptureRecord) : (s.setRecord l r).desc = s.desc := rfl
@[simp] theorem setRecord_phase (s : State) (l : Nat) (r : CaptureRecord) : (s.setRecord l r).phase = s.phase := rfl
@[simp] theorem setRecord_ledRun (s : State) (l : Nat) (r : CaptureRecord) : (s.setRecord l r).ledRun = s.ledRun := rfl
@[simp] theorem setRecord_ledOut (s : State) (l : Nat) (r : CaptureRecord) : (s.setRecord l r).ledOut = s.ledOut := rfl
@[simp] theorem setRecord_clrPending (s : State) (l : Nat) (r : CaptureRecord) : (s.setRecord l r).clrPending = s.clrPending := rfl
@[simp] theorem setRecord_descPending (s : State) (l : Nat) (r : CaptureRecord) : (s.setRecord l r).descPending = s.descPending := rfl
@[simp] theorem setRecord_clrBy (s : State) (l : Nat) (r : CaptureRecord) : (s.setRecord l r).clrBy = s.clrBy := rfl
@[simp] theorem setRecord_descBy (s : State) (l : Nat) (r : CaptureRecord) : (s.setRecord l r).descBy = s.descBy := rfl
@[simp] theorem setRecord_issuer (s : State) (l : Nat) (r : CaptureRecord) : (s.setRecord l r).issuer = s.issuer := rfl
@[simp] theorem setRecord_events (s : State) (l : Nat) (r : CaptureRecord) : (s.setRecord l r).events = s.events := rfl
@[simp] theorem setRecord_inbox (s : State) (l : Nat) (r : CaptureRecord) : (s.setRecord l r).inbox = s.inbox := rfl
@[simp] theorem setRecord_draws (s : State) (l : Nat) (r : CaptureRecord) : (s.setRecord l r).draws = s.draws := rfl

/-! ## clearTable -/

@[simp] theorem clearTable_cfg (s : State) : (s.clearTable).cfg = s.cfg := rfl
@[simp] theorem clearTable_tb (s : State) : (s.clearTable).tb = s.tb := rfl
@[simp] theorem clearTable_caps (s : State) : (s.clearTable).caps = s.caps.map clearRecord := rfl
@[simp] theorem clearTable_throttle (s : State) : (s.clearTable).throttle = s.throttle := rfl
@[simp] theorem clearTable_steering (s : State) : (s.clearTable).steering = s.steering := rfl
@[simp] theorem clearTable_status (s : State) : (s.clearTable).status = s.status := rfl
@[simp] theorem clearTable_desc (s : State) : (s.clearTable).desc = s.desc := rfl
@[simp] theorem clearTable_phase (s : State) : (s.clearTable).phase = s.phase := rfl
@[simp] theorem clearTable_ledRun (s : State) : (s.clearTable).ledRun = s.ledRun := rfl
@[simp] theorem clearTable_ledOut (s : State) : (s.clearTable).ledOut = s.ledOut := rfl
@[simp] theorem clearTable_clrPending (s : State) : (s.clearTable).clrPending = s.clrPending := rfl
@[simp] theorem clearTable_descPending (s : State) : (s.clearTable).descPending = s.descPending := rfl
@[simp] theorem clearTable_clrBy (s : State) : (s.clearTable).clrBy = s.clrBy := rfl
@[simp] theorem clearTable_descBy (s : State) : (s.clearTable).descBy = s.descBy := rfl
@[simp] theorem clearTable_issuer (s : State) : (s.clearTable).issuer = s.issuer := rfl
@[simp] theorem clearTable_events (s : State) : (s.clearTable).events = s.events := rfl
@[simp] theorem clearTable_inbox (s : State) : (s.clearTable).inbox = s.inbox := rfl
@[simp] theorem clearTable_draws (s : State) : (s.clearTable).draws = s.draws := rfl

/-! ## emit -/

@[simp] theorem emit_cfg (s : State) (e : OutEvent) : (s.emit e).cfg = s.cfg := rfl
@[simp] theorem emit_tb (s : State) (e : OutEvent) : (s.emit e).tb = s.tb := rfl
@[simp] theorem emit_caps (s : State) (e : OutEvent) : (s.emit e).caps = s.caps := rfl
@[simp] theorem emit_throttle (s : State) (e : OutEvent) : (s.emit e).throttle = s.throttle := rfl
@[simp] theorem emit_steering (s : State) (e : OutEvent) : (s.emit e).steering = s.steering := rfl
@[simp] theorem emit_status (s : State) (e : OutEvent) : (s.emit e).status = s.status := rfl
@[simp] theorem emit_desc (s : State) (e : OutEvent) : (s.emit e).desc = s.desc := rfl
@[simp] theorem emit_phase (s : State) (e : OutEvent) : (s.emit e).phase = s.phase := rfl
@[simp] theorem emit_ledRun (s : State) (e : OutEvent) : (s.emit e).ledRun = s.ledRun := rfl
@[simp] theorem emit_ledOut (s : State) (e : OutEvent) : (s.emit e).ledOut = s.ledOut := rfl
@[simp] theorem emit_clrPending (s : State) (e : OutEvent) : (s.emit e).clrPending = s.clrPending := rfl
@[simp] theorem emit_descPending (s : State) (e : OutEvent) : (s.emit e).descPending = s.descPending := rfl
@[simp] theorem emit_clrBy (s : State) (e : OutEvent) : (s.emit e).clrBy = s.clrBy := rfl
@[simp] theorem emit_descBy (s : State) (e : OutEvent) : (s.emit e).descBy = s.descBy := rfl
@[simp] theorem emit_issuer (s : State) (e : OutEvent) : (s.emit e).issuer = s.issuer := rfl
@[simp] theorem emit_events (s : State) (e : OutEvent) : (s.emit e).events = s.events ++ [e] := rfl
@[simp] theorem emit_inbox (s : State) (e : OutEvent) : (s.emit e).inbox = s.inbox := rfl
@[simp] theorem emit_draws (s : State) (e : OutEvent) : (s.emit e).draws = s.draws := rfl

/-! ## countDraw -/

@[simp] theorem countDraw_cfg (s : State) : (s.countDraw).cfg = s.cfg := rfl
@[simp] theorem countDraw_tb (s : State) : (s.countDraw).tb = s.tb := rfl
@[simp] theorem countDraw_caps (s : State) : (s.countDraw).caps = s.caps := rfl
@[simp] theorem countDraw_throttle (s : State) : (s.countDraw).throttle = s.throttle := rfl
@[simp] theorem countDraw_steering (s : State) : (s.countDraw).steering = s.steering := rfl
@[simp] theorem countDraw_status (s : State) : (s.countDraw).status = s.status := rfl
@[simp] theorem countDraw_desc (s : State) : (s.countDraw).desc = s.desc := rfl
@[simp] theorem countDraw_phase (s : State) : (s.countDraw).phase = s.phase := rfl
@[simp] theorem countDraw_ledRun (s : State) : (s.countDraw).ledRun = s.ledRun := rfl
@[simp] theorem countDraw_ledOut (s : State) : (s.countDraw).ledOut = s.ledOut := rfl
@[simp] theorem countDraw_clrPending (s : State) : (s.countDraw).clrPending = s.clrPending := rfl
@[simp] theorem countDraw_descPending (s : State) : (s.countDraw).descPending = s.descPending := rfl
@[simp] theorem countDraw_clrBy (s : State) : (s.countDraw).clrBy = s.clrBy := rfl
@[simp] theorem countDraw_descBy (s : State) : (s.countDraw).descBy = s.descBy := rfl
@[simp] theorem countDraw_issuer (s : State) : (s.countDraw).issuer = s.issuer := rfl
@[simp] theorem countDraw_events (s : State) : (s.countDraw).events = s.events := rfl
@[simp] theorem countDraw_inbox (s : State) : (s.countDraw).inbox = s.inbox := rfl
@[simp] theorem countDraw_draws (s : State) : (s.countDraw).draws = s.draws + 1 := rfl

/-! ## hand -/

@[simp] theorem hand_cfg (s : State) (e : Event) : (s.hand e).cfg = s.cfg := rfl
@[simp] theorem hand_tb (s : State) (e : Event) : (s.hand e).tb = s.tb := rfl
@[simp] theorem hand_caps (s : State) (e : Event) : (s.hand e).caps = s.caps := rfl
@[simp] theorem hand_throttle (s : State) (e : Event) : (s.hand e).throttle = s.throttle := rfl
@[simp] theorem hand_steering (s : State) (e : Event) : (s.hand e).steering = s.steering := rfl
@[simp] theorem hand_status (s : State) (e : Event) : (s.hand e).status = s.status := rfl
@[simp] theorem hand_desc (s : State) (e : Event) : (s.hand e).desc = s.desc := rfl
@[simp] theorem hand_phase (s : State) (e : Event) : (s.hand e).phase = s.phase := rfl
@[simp] theorem hand_ledRun (s : State) (e : Event) : (s.hand e).ledRun = s.ledRun := rfl
@[simp] theorem hand_ledOut (s : State) (e : Event) : (s.hand e).ledOut = s.ledOut := rfl
@[simp] theorem hand_clrPending (s : State) (e : Event) : (s.hand e).clrPending = s.clrPending := rfl
@[simp] theorem hand_descPending (s : State) (e : Event) : (s.hand e).descPending = s.descPending := rfl
@[simp] theorem hand_clrBy (s : State) (e : Event) : (s.hand e).clrBy = s.clrBy := rfl
@[simp] theorem hand_descBy (s : State) (e : Event) : (s.hand e).descBy = s.descBy := rfl
@[simp] theorem hand_issuer (s : State) (e : Event) : (s.hand e).issuer = s.issuer := rfl
@[simp] theorem hand_events (s : State) (e : Event) : (s.hand e).events = s.events := rfl
@[simp] theorem hand_inbox (s : State) (e : Event) : (s.hand e).inbox = e :: s.inbox := rfl
@[simp] theorem hand_draws (s : State) (e : Event) : (s.hand e).draws = s.draws := rfl

/-! ## writeLed -/

@[simp] theorem writeLed_cfg (s : State) (c : Colour) : (s.writeLed c).cfg = s.cfg := rfl
@[simp] theorem writeLed_tb (s : State) (c : Colour) : (s.writeLed c).tb = s.tb := rfl
@[simp] theorem writeLed_caps (s : State) (c : Colour) : (s.writeLed c).caps = s.caps := rfl
@[simp] theorem writeLed_throttle (s : State) (c : Colour) : (s.writeLed c).throttle = s.throttle := rfl
@[simp] theorem writeLed_steering (s : State) (c : Colour) : (s.writeLed c).steering = s.steering := rfl
@[simp] theorem writeLed_status (s : State) (c : Colour) : (s.writeLed c).status = s.status := rfl
@[simp] theorem writeLed_desc (s : State) (c : Colour) : (s.writeLed c).desc = s.desc := rfl
@[simp] theorem writeLed_phase (s : State) (c : Colour) : (s.writeLed c).phase = s.phase := rfl
@[simp] theorem writeLed_ledRun (s : State) (c : Colour) : (s.writeLed c).ledRun = s.ledRun := rfl
@[simp] theorem writeLed_ledOut (s : State) (c : Colour) : (s.writeLed c).ledOut = c := rfl
@[simp] theorem writeLed_clrPending (s : State) (c : Colour) : (s.writeLed c).clrPending = s.clrPending := rfl
@[simp] theorem writeLed_descPending (s : State) (c : Colour) : (s.writeLed c).descPending = s.descPending := rfl
@[simp] theorem writeLed_clrBy (s : State) (c : Colour) : (s.writeLed c).clrBy = s.clrBy := rfl
@[simp] theorem writeLed_descBy (s : State) (c : Colour) : (s.writeLed c).descBy = s.descBy := rfl
@[simp] theorem writeLed_issuer (s : State) (c : Colour) : (s.writeLed c).issuer = s.issuer := rfl
@[simp] theorem writeLed_events (s : State) (c : Colour) : (s.writeLed c).events = s.events ++ [.ledWrite c.r c.g c.b] := rfl
@[simp] theorem writeLed_inbox (s : State) (c : Colour) : (s.writeLed c).inbox = s.inbox := rfl
@[simp] theorem writeLed_draws (s : State) (c : Colour) : (s.writeLed c).draws = s.draws := rfl

/-! ## withHistory -/

@[simp] theorem withHistory_cfg (s : State) (es : List OutEvent) (h : List Event) : (s.withHistory es h).cfg = s.cfg := rfl
@[simp] theorem withHistory_tb (s : State) (es : List OutEvent) (h : List Event) : (s.withHistory es h).tb = s.tb := rfl
@[simp] theorem withHistory_caps (s : State) (es : List OutEvent) (h : List Event) : (s.withHistory es h).caps = s.caps := rfl
@[simp] theorem withHistory_throttle (s : State) (es : List OutEvent) (h : List Event) : (s.withHistory es h).throttle = s.throttle := rfl
@[simp] theorem withHistory_steering (s : State) (es : List OutEvent) (h : List Event) : (s.withHistory es h).steering = s.steering := rfl
@[simp] theorem withHistory_status (s : State) (es : List OutEvent) (h : List Event) : (s.withHistory es h).status = s.status := rfl
@[simp] theorem withHistory_desc (s : State) (es : List OutEvent) (h : List Event) : (s.withHistory es h).desc = s.desc := rfl
@[simp] theorem withHistory_phase (s : State) (es : List OutEvent) (h : List Event) : (s.withHistory es h).phase = s.phase := rfl
@[simp] theorem withHistory_ledRun (s : State) (es : List OutEvent) (h : List Event) : (s.withHistory es h).ledRun = s.ledRun := rfl
@[simp] theorem withHistory_ledOut (s : State) (es : List OutEvent) (h : List Event) : (s.withHistory es h).ledOut = s.ledOut := rfl
@[simp] theorem withHistory_clrPending (s : State) (es : List OutEvent) (h : List Event) : (s.withHistory es h).clrPending = s.clrPending := rfl
@[simp] theorem withHistory_descPending (s : State) (es : List OutEvent) (h : List Event) : (s.withHistory es h).descPending = s.descPending := rfl
@[simp] theorem withHistory_clrBy (s : State) (es : List OutEvent) (h : List Event) : (s.withHistory es h).clrBy = s.clrBy := rfl
@[simp] theorem withHistory_descBy (s : State) (es : List OutEvent) (h : List Event) : (s.withHistory es h).descBy = s.descBy := rfl
@[simp] theorem withHistory_issuer (s : State) (es : List OutEvent) (h : List Event) : (s.withHistory es h).issuer = s.issuer := rfl
@[simp] theorem withHistory_events (s : State) (es : List OutEvent) (h : List Event) : (s.withHistory es h).events = es := rfl
@[simp] theorem withHistory_inbox (s : State) (es : List OutEvent) (h : List Event) : (s.withHistory es h).inbox = h := rfl
@[simp] theorem withHistory_draws (s : State) (es : List OutEvent) (h : List Event) : (s.withHistory es h).draws = s.draws := rfl

/-! ## setPwm -/

@[simp] theorem setPwm_cfg (s : State) (c : PwmChannel) (p : PwmRegs) : (s.setPwm c p).cfg = s.cfg := by
  cases c <;> rfl
@[simp] theorem setPwm_tb (s : State) (c : PwmChannel) (p : PwmRegs) : (s.setPwm c p).tb = s.tb := by
  cases c <;> rfl
@[simp] theorem setPwm_caps (s : State) (c : PwmChannel) (p : PwmRegs) : (s.setPwm c p).caps = s.caps := by
  cases c <;> rfl
@[simp] theorem setPwm_status (s : State) (c : PwmChannel) (p : PwmRegs) : (s.setPwm c p).status = s.status := by
  cases c <;> rfl
@[simp] theorem setPwm_desc (s : State) (c : PwmChannel) (p : PwmRegs) : (s.setPwm c p).desc = s.desc := by
  cases c <;> rfl
@[simp] theorem setPwm_phase (s : State) (c : PwmChannel) (p : PwmRegs) : (s.setPwm c p).phase = s.phase := by
  cases c <;> rfl
@[simp] theorem setPwm_ledRun (s : State) (c : PwmChannel) (p : PwmRegs) : (s.setPwm c p).ledRun = s.ledRun := by
  cases c <;> rfl
@[simp] theorem setPwm_ledOut (s : State) (c : PwmChannel) (p : PwmRegs) : (s.setPwm c p).ledOut = s.ledOut := by
  cases c <;> rfl
@[simp] theorem setPwm_clrPending (s : State) (c : PwmChannel) (p : PwmRegs) : (s.setPwm c p).clrPending = s.clrPending := by
  cases c <;> rfl
@[simp] theorem setPwm_descPending (s : State) (c : PwmChannel) (p : PwmRegs) : (s.setPwm c p).descPending = s.descPending := by
  cases c <;> rfl
@[simp] theorem setPwm_clrBy (s : State) (c : PwmChannel) (p : PwmRegs) : (s.setPwm c p).clrBy = s.clrBy := by
  cases c <;> rfl
@[simp] theorem setPwm_descBy (s : State) (c : PwmChannel) (p : PwmRegs) : (s.setPwm c p).descBy = s.descBy := by
  cases c <;> rfl
@[simp] theorem setPwm_issuer (s : State) (c : PwmChannel) (p : PwmRegs) : (s.setPwm c p).issuer = s.issuer := by
  cases c <;> rfl
@[simp] theorem setPwm_events (s : State) (c : PwmChannel) (p : PwmRegs) : (s.setPwm c p).events = s.events := by
  cases c <;> rfl
@[simp] theorem setPwm_inbox (s : State) (c : PwmChannel) (p : PwmRegs) : (s.setPwm c p).inbox = s.inbox := by
  cases c <;> rfl
@[simp] theorem setPwm_draws (s : State) (c : PwmChannel) (p : PwmRegs) : (s.setPwm c p).draws = s.draws := by
  cases c <;> rfl

/-! ## Reading back -/

/-- A record after another field than the table has been written. -/
@[simp] theorem record_withClrPending (s : State) (ps : List (Nat × CapField)) (l : Nat) :
    State.record { s with clrPending := ps } l = s.record l := rfl

@[simp] theorem pwm_setPwm_self (s : State) (c : PwmChannel) (p : PwmRegs) : (s.setPwm c p).pwm c = p := by
  cases c <;> rfl

theorem pwm_setPwm_ne (s : State) (p : PwmRegs) {c c' : PwmChannel} (h : c' ≠ c) :
    (s.setPwm c p).pwm c' = s.pwm c' := by
  cases c <;> cases c' <;> first | rfl | exact absurd rfl h

/-- Writing a channel's registers back what they are changes nothing. -/
@[simp] theorem setPwm_pwm (s : State) (c : PwmChannel) : s.setPwm c (s.pwm c) = s := by
  cases c <;> rfl

/-- The later write of one channel's registers wins. -/
@[simp] theorem setPwm_setPwm (s : State) (c : PwmChannel) (p q : PwmRegs) :
    (s.setPwm c p).setPwm c q = s.setPwm c q := by
  cases c <;> rfl

/-- Both channels' registers decide PWM state. -/
theorem pwm_throttle (s : State) : s.pwm .throttle = s.throttle := rfl

theorem pwm_steering (s : State) : s.pwm .steering = s.steering := rfl

/-- A PWM reading depends on the two registers only. -/
theorem pwm_eq_of_regs {s t : State} (ht : t.throttle = s.throttle) (hs : t.steering = s.steering)
    (c : PwmChannel) : t.pwm c = s.pwm c := by
  cases c <;> simp [State.pwm, ht, hs]

/-- A record depends on the table only. -/
theorem record_eq_of_caps {s t : State} (h : t.caps = s.caps) (l : Nat) : t.record l = s.record l := by
  simp [State.record, h]

@[simp] theorem record_emit (s : State) (e : OutEvent) (l : Nat) : (s.emit e).record l = s.record l := rfl

@[simp] theorem record_countDraw (s : State) (l : Nat) : s.countDraw.record l = s.record l := rfl

@[simp] theorem record_setPwm (s : State) (c : PwmChannel) (p : PwmRegs) (l : Nat) :
    (s.setPwm c p).record l = s.record l := by
  cases c <;> rfl

@[simp] theorem pwm_emit (s : State) (e : OutEvent) (c : PwmChannel) : (s.emit e).pwm c = s.pwm c := by
  cases c <;> rfl

@[simp] theorem pwm_countDraw (s : State) (c : PwmChannel) : s.countDraw.pwm c = s.pwm c := by
  cases c <;> rfl

@[simp] theorem pwm_setRecord (s : State) (l : Nat) (r : CaptureRecord) (c : PwmChannel) :
    (s.setRecord l r).pwm c = s.pwm c := by
  cases c <;> rfl

/-- The record just written, when the line is in the table. -/
theorem record_setRecord_self (s : State) {l : Nat} (r : CaptureRecord) (h : l < s.caps.length) :
    (s.setRecord l r).record l = r := by
  simp [State.record, List.getD, h]

/-- Writing one record leaves every other one alone. -/
theorem record_setRecord_ne (s : State) (r : CaptureRecord) {l k : Nat} (h : k ≠ l) :
    (s.setRecord l r).record k = s.record k := by
  simp [State.record, List.getD, List.getElem?_set_ne (Ne.symm h)]

/-- Writing a record back what it is changes nothing. -/
@[simp] theorem setRecord_record (s : State) (l : Nat) : s.setRecord l (s.record l) = s := by
  have h : s.caps.set l (s.record l) = s.caps := by
    apply List.ext_getElem?
    intro k
    rw [List.getElem?_set]
    split
    · rename_i h
      subst h
      split
      · rename_i h
        simp [State.record, List.getD, h]
      · rename_i h
        simp [Nat.le_of_not_lt h]
    · rfl
  show { s with caps := s.caps.set l (s.record l) } = s
  rw [h]

/-- A line outside the table reads as the all-zero record. -/
theorem record_outside (s : State) {l : Nat} (h : s.caps.length ≤ l) : s.record l = resetRecord := by
  simp [State.record, List.getD, List.getElem?_eq_none h]

/-- A line inside the table has a record that is in it. -/
theorem record_mem (s : State) {l : Nat} (h : l < s.caps.length) : s.record l ∈ s.caps := by
  simp [State.record, List.getD, h]

/-- Writing a record keeps the size of the table (R19). -/
theorem setRecord_size (s : State) (l : Nat) (r : CaptureRecord) :
    (s.setRecord l r).caps.length = s.caps.length := by
  simp

/-- Clearing the table keeps its size (R19). -/
theorem clearTable_size (s : State) : s.clearTable.caps.length = s.caps.length := by
  simp

/-- Clearing the table clears each record's RISE and WIDTH and keeps its CAP_EN (R87). -/
theorem record_clearTable (s : State) (l : Nat) : s.clearTable.record l = clearRecord (s.record l) := by
  have h : clearRecord resetRecord = resetRecord := rfl
  cases hl : s.caps[l]? <;> simp [State.record, List.getD, hl, h]

end Sys2Proof.Machine
end

