-- ==== Sys2Proof/Laws/Ops.lean ====
section
/-! SUPPORT. One lemma per shared operation that says everything it can do. -/

namespace Sys2Proof.Machine

/-! ## Arithmetic on s32 values (00_scope.md R13) -/

theorem sMin_toInt (a b : S32) : (sMin a b).toInt = min a.toInt b.toInt := by
  unfold sMin
  split <;> omega

theorem sMax_toInt (a b : S32) : (sMax a b).toInt = max a.toInt b.toInt := by
  unfold sMax
  split <;> omega

/-- The minimum of a value with itself (R99: setting the value the register holds). -/
theorem sMin_of_le {a b : S32} (h : a.toInt ≤ b.toInt) : sMin a b = a := if_pos h

theorem sMax_of_ge {a b : S32} (h : b.toInt ≤ a.toInt) : sMax a b = a := by
  unfold sMax
  split
  · exact BitVec.eq_of_toInt_eq (by omega)
  · rfl

/-! ## Draws (R14) -/

/-- A draw stays in its interval (R103). -/
theorem drawBetween_mem (n : Nat) {lo hi : Nat} (h : lo ≤ hi) :
    lo ≤ drawBetween n lo hi ∧ drawBetween n lo hi ≤ hi := by
  unfold drawBetween
  split
  · omega
  · have := Nat.mod_lt (Config.draw n) (show 0 < hi - lo + 1 by omega)
    omega

/-- An interval of one value leaves no choice (R105). -/
@[simp] theorem drawBetween_self (n lo : Nat) : drawBetween n lo lo = lo := by
  simp [drawBetween]

/-- A draw among the positions of a list that is not empty is one of them. -/
theorem drawBetween_index (n : Nat) {α : Type} {l : List α} (h : l ≠ []) :
    drawBetween n 0 (l.length - 1) < l.length := by
  have hl : 0 < l.length := List.length_pos_iff.mpr h
  have := (drawBetween_mem n (Nat.zero_le (l.length - 1))).2
  omega

/-! ## Operations on one line (R79) -/

/-- An operation on a line of the table ends in the state its rule gives. -/
theorem onLine_legal {i : Instr} {l : Nat} {s : State} (t : State) (h : lineLegal s l) :
    onLine i l s t = .next t := if_pos h

/-- A line outside the table is refused (R66). -/
theorem onLine_illegal {i : Instr} {l : Nat} {s : State} (t : State) (h : ¬ lineLegal s l) :
    onLine i l s t = .refused (.illegal .badSelector (encode i)) := if_neg h

/-- If an operation on a line answers a next state, the line is in the table and the state is its rule's. -/
theorem onLine_next {i : Instr} {l : Nat} {s t u : State} (h : onLine i l s t = .next u) :
    lineLegal s l ∧ u = t := by
  unfold onLine at h
  split at h
  · cases h
    exact ⟨by assumption, rfl⟩
  · cases h

/-! ## Split operations (R43, R88, R114) -/

/-- A pair is pending at the start of a per_field CLRALL exactly when its line is in the table (R88). -/
theorem mem_allPairs {n : Nat} {p : Nat × CapField} : p ∈ allPairs n ↔ p.1 < n := by
  induction n with
  | zero => simp [allPairs]
  | succ n ih =>
    obtain ⟨l, f⟩ := p
    simp only [allPairs, List.mem_append, ih, List.mem_cons, List.not_mem_nil, or_false, Prod.mk.injEq]
    constructor
    · rintro (h | ⟨rfl, -⟩ | ⟨rfl, -⟩) <;> omega
    · intro h
      rcases Nat.lt_succ_iff_lt_or_eq.mp h with h | rfl
      · exact .inl h
      · cases f <;> simp

/-- CLR_PENDING starts as a set (R43). -/
theorem allPairs_nodup (n : Nat) : (allPairs n).Nodup := by
  induction n with
  | zero => simp [allPairs]
  | succ n ih =>
    rw [allPairs, List.nodup_append]
    refine ⟨ih, by simp, ?_⟩
    intro a ha b hb
    have := mem_allPairs.mp ha
    simp only [List.mem_cons, List.not_mem_nil, or_false] at hb
    rcases hb with rfl | rfl <;> rintro rfl <;> simp at this

/-- Two pairs per line (R88). -/
theorem allPairs_length (n : Nat) : (allPairs n).length = 2 * n := by
  induction n with
  | zero => rfl
  | succ n ih =>
    simp [allPairs, ih]
    omega

/-- Clearing one field of a record. -/
@[simp] theorem clearField_en (f : CapField) (r : CaptureRecord) : (clearField f r).en = r.en := by
  cases f <;> rfl

/-- A micro-step of CLRALL that has a pair to clear: that pair's field is 0 and the pair is no longer pending (R88). -/
theorem clrMicroAt_some {s : State} {k l : Nat} {f : CapField} (h : s.clrPending[k]? = some (l, f)) :
    s.clrMicroAt k =
      { s with clrPending := s.clrPending.eraseIdx k }.setRecord l (clearField f (s.record l)) := by
  simp [State.clrMicroAt, h]

/-- A micro-step of CLRALL with nothing pending does nothing. -/
theorem clrMicroAt_none {s : State} {k : Nat} (h : s.clrPending[k]? = none) : s.clrMicroAt k = s := by
  simp [State.clrMicroAt, h]

/-- A micro-step of STSET that has a field to write writes it, and the field is no longer pending (R114). -/
theorem descMicroAt_some {s : State} {k : Nat} {f : DescField} {v : Byte} (h : s.descPending[k]? = some (f, v)) :
    s.descMicroAt k =
      { s with desc := setDescField s.desc f v, descPending := s.descPending.eraseIdx k } := by
  simp [State.descMicroAt, h]

/-- A micro-step of STSET with nothing pending does nothing. -/
theorem descMicroAt_none {s : State} {k : Nat} (h : s.descPending[k]? = none) : s.descMicroAt k = s := by
  simp [State.descMicroAt, h]

/-- A CLRALL in progress makes its micro-step. -/
theorem microStep_clearing {s : State} {a : Agent} (h : clearing s a) : microStep s a = s.clrMicro := if_pos h

/-- A STSET in progress makes its micro-step, when no CLRALL of the same agent is. -/
theorem microStep_describing {s : State} {a : Agent} (hc : ¬ clearing s a) (hd : describing s a) :
    microStep s a = s.descMicro := by
  simp only [microStep, if_neg hc, if_pos hd]

/-- Without a split operation there is no micro-step. -/
theorem microStep_idle {s : State} {a : Agent} (h : ¬ busy s a) : microStep s a = s := by
  simp only [microStep, if_neg (fun hc => h (.inl hc)), if_neg (fun hd => h (.inr hd))]

/-- The agent that hands over the host's word is not busy (R8). -/
theorem freeAgent_not_busy (s : State) : ¬ busy s (freeAgent s) := by
  unfold freeAgent
  split
  · assumption
  · split
    · assumption
    · rename_i h1 h2
      have h1 := not_not.mp h1
      have h2 := not_not.mp h2
      rcases h1 with ⟨-, h1⟩ | ⟨-, h1⟩ <;> rcases h2 with ⟨-, h2⟩ | ⟨-, h2⟩ <;>
        rintro (⟨-, h⟩ | ⟨-, h⟩) <;> simp_all

/-! ## The table (42_led.md R111) -/

/-- No two statuses have the same descriptor (R112). -/
theorem ledTable_injective {a b : Status} (h : ledTable a = ledTable b) : a = b := by
  revert h
  cases a <;> cases b <;> decide

end Sys2Proof.Machine
end

