-- ==== Sys2Proof/Laws/Exec.lean ====
section
/-! SUPPORT. One lemma per operation that says what it leaves, in the terms of its rule. -/

namespace Sys2Proof.Machine

/-- R80. -/
theorem exec_capen {l : Nat} {s : State} (h : lineLegal s l) :
    exec (.capen l) s = .next (s.setRecord l { s.record l with en := true }) := onLine_legal _ h

/-- R81. -/
theorem exec_tbadv (d : U32) (s : State) : exec (.tbadv d) s = .next { s with tb := s.tb + d } := rfl

/-- R82. -/
theorem exec_capr_enabled {l : Nat} {s : State} (h : lineLegal s l) (he : (s.record l).en = true) :
    exec (.capr l) s = .next (s.setRecord l { s.record l with rise := s.tb }) := by
  rw [exec, execCapr, onLine_legal _ h, if_pos he]

/-- R85. -/
theorem exec_capr_disabled {l : Nat} {s : State} (h : lineLegal s l) (he : (s.record l).en = false) :
    exec (.capr l) s = .next s := by
  rw [exec, execCapr, onLine_legal _ h, if_neg (by simp [he])]

/-- R83. -/
theorem exec_capf_accepted {l : Nat} {s : State} (h : lineLegal s l) (he : (s.record l).en = true)
    (hg : guardPasses s.tb (s.record l).rise) :
    exec (.capf l) s = .next (s.setRecord l { s.record l with width := s.tb - (s.record l).rise }) := by
  rw [exec, execCapf, onLine_legal _ h, if_pos ⟨he, hg⟩]

/-- R84, R85. -/
theorem exec_capf_dropped {l : Nat} {s : State} (h : lineLegal s l)
    (hd : ¬ ((s.record l).en = true ∧ guardPasses s.tb (s.record l).rise)) :
    exec (.capf l) s = .next s := by
  rw [exec, execCapf, onLine_legal _ h, if_neg hd]

/-- R86. -/
theorem exec_rdclr {l : Nat} {s : State} (h : lineLegal s l) :
    exec (.rdclr l) s = .next ((s.setRecord l { s.record l with width := 0 }).emit
      (.rdclrResp l (s.record l).width)) := onLine_legal _ h

/-- R87. -/
theorem exec_clrall_atomic {s : State} (h : s.cfg.clearAllMode = .atomic) :
    exec .clrall s = .next s.clearTable := by
  simp [exec, execClrall, h]

/-- R88. -/
theorem exec_clrall_perField {s : State} (h : s.cfg.clearAllMode = .perField) :
    exec .clrall s = .next { s with clrPending := allPairs s.cfg.maxChannels, clrBy := s.issuer } := by
  simp [exec, execClrall, h]

/-- R99. -/
theorem exec_pwmset (c : PwmChannel) (w : S32) (s : State) :
    exec (.pwmset c w) s =
      .next (s.setPwm c { w := w, lo := sMin (s.pwm c).lo w, hi := sMax (s.pwm c).hi w }) := rfl

/-- R103. -/
theorem exec_pwmper (c : PwmChannel) (s : State) :
    exec (.pwmper c) s =
      .next (((s.setPwm c { w := (s.pwm c).w, lo := (s.pwm c).w, hi := (s.pwm c).w }).emit
        (.pwmPulse c (highTime (s.pwm c) s.cfg.pwmPeriodUs s.draws))).countDraw) := rfl

/-- R113. -/
theorem exec_stset_same (s : State) : exec (.stset s.status) s = .next s := by
  simp [exec, execStset]

/-- R112. -/
theorem exec_stset_atomic {st : Status} {s : State} (hne : st ≠ s.status) (h : s.cfg.ledDescMode = .atomic) :
    exec (.stset st) s = .next { s with status := st, desc := ledTable st } := by
  simp [exec, execStset, hne, h]

/-- R114. -/
theorem exec_stset_perField {st : Status} {s : State} (hne : st ≠ s.status) (h : s.cfg.ledDescMode = .perField) :
    exec (.stset st) s =
      .next { s with status := st, descPending := descFields (ledTable st), descBy := s.issuer } := by
  simp [exec, execStset, hne, h]

/-- R120. -/
theorem exec_ledstart (s : State) : exec .ledstart s = .next { s with ledRun := true } := rfl

/-- R116. -/
theorem exec_ledtick_running {s : State} (h : s.ledRun = true) :
    exec .ledtick s =
      .next ({ s with phase := s.phase + 1 }.writeLed (slotColour s.cfg.ledBitOrder s.desc s.phase)) := by
  simp [exec, execLedtick, h]

/-- R117. -/
theorem exec_ledtick_stopped {s : State} (h : s.ledRun = false) : exec .ledtick s = .next s := by
  simp [exec, execLedtick, h]

/-- R121. -/
theorem exec_ledblank (s : State) : exec .ledblank s = .next (s.writeLed ⟨0, 0, 0⟩) := rfl

/-- What no operation changes: the parameters, what has been handed over, the issuer and the size of the table; and no
operation takes back an event. -/
structure Keeps (s t : State) : Prop where
  cfg : t.cfg = s.cfg
  inbox : t.inbox = s.inbox
  issuer : t.issuer = s.issuer
  size : t.caps.length = s.caps.length
  events : ∃ es, t.events = s.events ++ es

theorem keeps_refl (s : State) : Keeps s s := ⟨rfl, rfl, rfl, rfl, [], by simp⟩

/-- Every operation that answers a next state keeps what no operation changes. -/
theorem exec_keeps {i : Instr} {s t : State} (h : exec i s = .next t) : Keeps s t := by
  cases i with
  | capen l =>
    obtain ⟨-, rfl⟩ := onLine_next h
    exact ⟨rfl, rfl, rfl, by simp, [], by simp⟩
  | capr l =>
    obtain ⟨-, rfl⟩ := onLine_next h
    split
    · exact ⟨rfl, rfl, rfl, by simp, [], by simp⟩
    · exact keeps_refl s
  | capf l =>
    obtain ⟨-, rfl⟩ := onLine_next h
    split
    · exact ⟨rfl, rfl, rfl, by simp, [], by simp⟩
    · exact keeps_refl s
  | rdclr l =>
    obtain ⟨-, rfl⟩ := onLine_next h
    exact ⟨rfl, rfl, rfl, by simp, _, rfl⟩
  | clrall =>
    cases hm : s.cfg.clearAllMode with
    | atomic =>
      rw [exec_clrall_atomic hm] at h
      cases h
      exact ⟨rfl, rfl, rfl, by simp, [], by simp⟩
    | perField =>
      rw [exec_clrall_perField hm] at h
      cases h
      exact ⟨rfl, rfl, rfl, rfl, [], by simp⟩
  | tbadv d =>
    cases h
    exact ⟨rfl, rfl, rfl, rfl, [], by simp⟩
  | pwmset c w =>
    cases h
    exact ⟨by simp, by simp, by simp, by simp, [], by simp⟩
  | pwmper c =>
    cases h
    exact ⟨by simp, by simp, by simp, by simp, _, by simp; rfl⟩
  | stset st =>
    by_cases hs : st = s.status
    · subst hs
      rw [exec_stset_same] at h
      cases h
      exact keeps_refl s
    · cases hm : s.cfg.ledDescMode with
      | atomic =>
        rw [exec_stset_atomic hs hm] at h
        cases h
        exact ⟨rfl, rfl, rfl, rfl, [], by simp⟩
      | perField =>
        rw [exec_stset_perField hs hm] at h
        cases h
        exact ⟨rfl, rfl, rfl, rfl, [], by simp⟩
  | ledstart =>
    cases h
    exact ⟨rfl, rfl, rfl, rfl, [], by simp⟩
  | ledtick =>
    cases hr : s.ledRun with
    | true =>
      rw [exec_ledtick_running hr] at h
      cases h
      exact ⟨rfl, rfl, rfl, rfl, _, rfl⟩
    | false =>
      rw [exec_ledtick_stopped hr] at h
      cases h
      exact keeps_refl s
  | ledblank =>
    cases h
    exact ⟨rfl, rfl, rfl, rfl, _, rfl⟩

/-- The high time of a period in which every width held was in range lies between the least and the greatest (R103). -/
theorem highTime_inRange {p : PwmRegs} {periodUs : Nat} (n : Nat) (h : widthsInRange p periodUs)
    (hle : p.lo.toInt ≤ p.hi.toInt) :
    p.lo.toInt ≤ highTime p periodUs n ∧ (highTime p periodUs n : Int) ≤ p.hi.toInt := by
  have h1 := h.1
  have h2 := h.2
  have := drawBetween_mem n (show p.lo.toInt.toNat ≤ p.hi.toInt.toNat by omega)
  rw [highTime, if_pos h]
  omega

/-- Every high time lies in the period (R102, R104). -/
theorem highTime_le {p : PwmRegs} {periodUs : Nat} (n : Nat) (hle : p.lo.toInt ≤ p.hi.toInt) :
    highTime p periodUs n ≤ periodUs := by
  by_cases h : widthsInRange p periodUs
  · have := (highTime_inRange n h hle).2
    have := h.2
    omega
  · rw [highTime, if_neg h]
    exact (drawBetween_mem n (Nat.zero_le _)).2

/-- In steady state the high time is the width (R105). -/
theorem highTime_steady {w : S32} {periodUs : Nat} (n : Nat) (h0 : 0 ≤ w.toInt) (h1 : w.toInt ≤ periodUs) :
    (highTime ⟨w, w, w⟩ periodUs n : Int) = w.toInt := by
  rw [highTime, if_pos ⟨h0, h1⟩, drawBetween_self]
  exact Int.toNat_of_nonneg h0

/-- A slot's colour is the descriptor's or black (R115). -/
theorem slotColour_cases (order : BitOrder) (d : Desc) (slot : BitVec 3) :
    slotColour order d slot = ⟨d.r, d.g, d.b⟩ ∨ slotColour order d slot = ⟨0, 0, 0⟩ := by
  unfold slotColour
  split
  · exact .inl rfl
  · exact .inr rfl

end Sys2Proof.Machine
end

