-- ==== Sys2Proof/Laws/Controller.lean ====
section
/-! SUPPORT. What the reference host's runs do, step by step (43_host_usage.md). -/

namespace Sys2Proof.Machine

/-! ## The input stream (R130) -/

/-- The line taken is what stands before the first newline, and the rest is what stands after it. -/
theorem takeLine_some {bs line after : List Byte} :
    takeLine bs = some (line, after) ↔ bs = line ++ newline :: after ∧ newline ∉ line := by
  induction bs generalizing line after with
  | nil => simp [takeLine]
  | cons b rest ih =>
    by_cases hb : b = newline
    · subst hb
      simp only [takeLine, if_true, Option.some.injEq, Prod.mk.injEq]
      constructor
      · rintro ⟨rfl, rfl⟩
        simp
      · rintro ⟨h, hn⟩
        cases line with
        | nil => simpa using h
        | cons c line =>
          rw [List.cons_append, List.cons.injEq] at h
          exact absurd (h.1 ▸ List.mem_cons_self) hn
    · rw [takeLine, if_neg hb]
      cases hr : takeLine rest with
      | none =>
        simp only [reduceCtorEq, false_iff, not_and]
        intro h
        cases line with
        | nil => exact absurd (List.cons.inj h).1 hb
        | cons c line =>
          intro hn
          have := ih.mpr ⟨(List.cons.inj h).2, fun hm => hn (List.mem_cons_of_mem _ hm)⟩
          rw [hr] at this
          cases this
      | some p =>
        obtain ⟨l, a⟩ := p
        simp only [Option.some.injEq, Prod.mk.injEq]
        have hl := ih.mp hr
        constructor
        · rintro ⟨rfl, rfl⟩
          exact ⟨by rw [hl.1]; rfl, by simp [hl.2, Ne.symm hb]⟩
        · rintro ⟨h, hn⟩
          cases line with
          | nil => exact absurd (List.cons.inj h).1 hb
          | cons c line =>
            obtain ⟨rfl, h⟩ := List.cons.inj h
            obtain ⟨hc, ht⟩ := List.cons.inj h
            have := ih.mpr ⟨ht, fun hm => hn (List.mem_cons_of_mem _ hm)⟩
            rw [hr] at this
            cases this
            exact ⟨congrArg (· :: _) hc, rfl⟩

/-! ## Runs are contiguous among HOST's operations (R146) -/

/-- While a run is in progress, its last split operation among it, no other run begins. -/
theorem beginRun_running {k : Controller} (hr : k.running) (host : HostState) : k.beginRun host = k := if_pos hr

/-- Between runs a run begins, and the unit stays as it is. -/
theorem beginRun_idle {k : Controller} (hr : ¬ k.running) (host : HostState) :
    k.beginRun host = { k with host := host } := if_neg hr

/-- The event of a run's beginning while a run is in progress changes nothing: no reading, no line, no command state. -/
theorem step_begin_running {k : Controller} (hr : k.running) (left right clock : Nat) :
    k.step (.commandRun left right) = .next k ∧ k.step (.telemetryRun clock) = .next k :=
  ⟨congrArg Host.Outcome.next (beginRun_running hr _), congrArg Host.Outcome.next (beginRun_running hr _)⟩

/-- A command run refreshes both readings whether or not a line is there (R130, R145). -/
theorem beginCommand_sensors (c : Config) (left right : Nat) (h : HostState) :
    (h.beginCommand c left right).sensorLeft = left ∧ (h.beginCommand c left right).sensorRight = right := by
  rw [HostState.beginCommand]
  split <;> exact ⟨rfl, rfl⟩

/-- Without a complete line a command run changes the readings and nothing else, and issues nothing (R130). -/
theorem beginCommand_noLine (c : Config) (left right : Nat) {h : HostState} (hl : takeLine h.input = none) :
    h.beginCommand c left right = { h with sensorLeft := left, sensorRight := right } := by
  simp [HostState.beginCommand, hl]

/-- With a complete line a command run takes it off the input stream and goes on to what it makes of it (R130, R132). -/
theorem beginCommand_line (c : Config) (left right : Nat) {h : HostState} {line after : List Byte}
    (hl : takeLine h.input = some (line, after)) :
    h.beginCommand c left right =
      { h with
        sensorLeft := left, sensorRight := right, input := after,
        command := (commandDuty c (some line) h.command).1,
        todo := (commandDuty c (some line) h.command).2.map HostAct.issue } := by
  simp [HostState.beginCommand, hl]

/-- A telemetry run takes the time and then has the five reads of TELEMREAD and the report to do (R139). -/
theorem beginTelemetry_eq (clock : Nat) (h : HostState) :
    h.beginTelemetry clock =
      { h with clock := clock, kept := Widths.zero, todo := monitored.map HostAct.read ++ [.report] } := rfl

/-! ## HOST's steps -/

/-- Two lists of events that differ by a response at the end have that response between them (R72). -/
@[simp] theorem responseOf_append (es : List OutEvent) (l : Nat) (v : U32) :
    responseOf es (es ++ [.rdclrResp l v]) = some v := by
  simp [responseOf]

/-- While HOST's split operation is in progress its next step is a micro-step, and its run waits (R88, R114). -/
theorem hostStep_busy {k : Controller} (hb : busy k.unit .host) :
    k.hostStep = .next { k with unit := microStep k.unit .host } := if_pos hb

/-- An operation of a run goes to the unit as HOST's, and the rest of the run stays to do. -/
theorem hostStep_issue {k : Controller} {i : Instr} {rest : List HostAct} {u : State} (hb : ¬ busy k.unit .host)
    (ht : k.host.todo = .issue i :: rest) (hx : exec i { k.unit with issuer := .host } = .next u) :
    k.hostStep = .next { unit := u, host := { k.host with todo := rest } } := by
  simp only [Controller.hostStep, if_neg hb, ht, Controller.issue, hx]

/-- A read of a run answers with the width the channel's line has then, and the host keeps that response (R86, R139). -/
theorem hostStep_read {k : Controller} {ch : InputChannel} {rest : List HostAct} (hb : ¬ busy k.unit .host)
    (ht : k.host.todo = .read ch :: rest) (hl : lineLegal k.unit (lineOf k.unit.cfg ch)) :
    ∃ u, exec (.rdclr (lineOf k.unit.cfg ch)) { k.unit with issuer := .host } = .next u ∧
      k.hostStep = .next
        { unit := u,
          host := { k.host with
            kept := k.host.kept.keep ch (k.unit.record (lineOf k.unit.cfg ch)).width, todo := rest } } := by
  refine ⟨_, exec_rdclr (s := { k.unit with issuer := .host }) hl, ?_⟩
  have hx := exec_rdclr (s := { k.unit with issuer := .host }) hl
  simp only [Controller.hostStep, if_neg hb, ht, Controller.issue, hx]
  have he : responseOf k.unit.events (k.unit.events ++
      [.rdclrResp (lineOf k.unit.cfg ch) (k.unit.record (lineOf k.unit.cfg ch)).width]) = _ := responseOf_append ..
  exact congrArg (fun r => Host.Outcome.next (Controller.mk _ (HostState.keepResponse _ ch r))) he

/-- The report emits the line made of the time, the responses kept and the readings as last refreshed, and leaves the
operations that follow it to do (R140 to R143). -/
theorem hostStep_report {k : Controller} {rest : List HostAct} (hb : ¬ busy k.unit .host)
    (ht : k.host.todo = .report :: rest) :
    k.hostStep = .next { k with host := { k.host with todo := rest }.report k.unit.cfg } := by
  simp only [Controller.hostStep, if_neg hb, ht]

/-- Between runs HOST does nothing. -/
theorem hostStep_idle {k : Controller} (hb : ¬ busy k.unit .host) (ht : k.host.todo = []) :
    k.hostStep = .next k := by
  simp only [Controller.hostStep, if_neg hb, ht]

/-- What other agents do, and bytes that come, leave what is left of HOST's run as it is (R146). -/
theorem step_other_todo {k t : Controller} {e : ControllerEvent} (h : k.step e = .next t)
    (he : (∃ bytes, e = .receive bytes) ∨ ∃ a i, e = .agentStep a i) : t.host.todo = k.host.todo := by
  rcases he with ⟨bytes, rfl⟩ | ⟨a, i, rfl⟩
  · cases h
    rfl
  · simp only [Controller.step] at h
    split at h
    · split at h
      · cases h
        rfl
      · cases h
      · cases h
    · cases h
      rfl

end Sys2Proof.Machine
end

