-- ==== Sys2Proof/Laws/Decode.lean ====
section
/-! SUPPORT. The fields of an operation word (30_encoding.md R61), and what the decoder's parts answer. -/

namespace Sys2Proof

@[simp] theorem opOf_wordOf (op : BitVec 4) (rz : BitVec 20) (sel : BitVec 8) (data : BitVec 32) :
    opOf (wordOf op rz sel data) = op := by
  apply BitVec.eq_of_getLsbD_eq
  intro i hi
  simp only [opOf, wordOf, BitVec.getLsbD_extractLsb', BitVec.getLsbD_append]
  simp [hi, show ¬ (60 + i < 32) by omega, show ¬ (60 + i - 32 < 8) by omega,
    show ¬ (60 + i - 32 - 8 < 20) by omega, show 60 + i - 32 - 8 - 20 = i by omega]

@[simp] theorem rzOf_wordOf (op : BitVec 4) (rz : BitVec 20) (sel : BitVec 8) (data : BitVec 32) :
    rzOf (wordOf op rz sel data) = rz := by
  apply BitVec.eq_of_getLsbD_eq
  intro i hi
  simp only [rzOf, wordOf, BitVec.getLsbD_extractLsb', BitVec.getLsbD_append]
  simp [hi, show ¬ (40 + i < 32) by omega, show ¬ (40 + i - 32 < 8) by omega,
    show 40 + i - 32 - 8 = i by omega]

@[simp] theorem selOf_wordOf (op : BitVec 4) (rz : BitVec 20) (sel : BitVec 8) (data : BitVec 32) :
    selOf (wordOf op rz sel data) = sel := by
  apply BitVec.eq_of_getLsbD_eq
  intro i hi
  simp only [selOf, wordOf, BitVec.getLsbD_extractLsb', BitVec.getLsbD_append]
  simp [hi, show ¬ (32 + i < 32) by omega, show 32 + i - 32 = i by omega]

@[simp] theorem dataOf_wordOf (op : BitVec 4) (rz : BitVec 20) (sel : BitVec 8) (data : BitVec 32) :
    dataOf (wordOf op rz sel data) = data := by
  apply BitVec.eq_of_getLsbD_eq
  intro i hi
  simp only [dataOf, wordOf, BitVec.getLsbD_extractLsb', BitVec.getLsbD_append]
  simp [hi]

/-- A word is its four fields (R61). -/
theorem wordOf_fields (w : Word) : wordOf (opOf w) (rzOf w) (selOf w) (dataOf w) = w := by
  apply BitVec.eq_of_getLsbD_eq
  intro i hi
  simp only [wordOf, opOf, rzOf, selOf, dataOf, BitVec.getLsbD_append, BitVec.getLsbD_extractLsb']
  by_cases h1 : i < 32
  · simp [h1]
  · by_cases h2 : i - 32 < 8
    · simp [h1, h2, show 32 + (i - 32) = i by omega]
    · by_cases h3 : i - 32 - 8 < 20
      · simp [h1, h2, h3, show 40 + (i - 32 - 8) = i by omega]
      · simp [h1, h2, h3, show i - 32 - 8 - 20 < 4 by omega, show 60 + (i - 32 - 8 - 20) = i by omega]

/-- Two words with the same four fields are the same word (R61). -/
theorem word_eq_of_fields {v w : Word} (ho : opOf v = opOf w) (hr : rzOf v = rzOf w) (hs : selOf v = selOf w)
    (hd : dataOf v = dataOf w) : v = w := by
  rw [← wordOf_fields v, ← wordOf_fields w, ho, hr, hs, hd]

/-- The bits two words share, field by field (R61). -/
theorem wordOf_and (op op' : BitVec 4) (rz rz' : BitVec 20) (sel sel' : BitVec 8) (data data' : BitVec 32) :
    wordOf op rz sel data &&& wordOf op' rz' sel' data' =
      wordOf (op &&& op') (rz &&& rz') (sel &&& sel') (data &&& data') := by
  have hand : ∀ (v w : Word) (k n : Nat), (v &&& w).extractLsb' k n = v.extractLsb' k n &&& w.extractLsb' k n :=
    fun v w k n => BitVec.extractLsb'_and ..
  have ho := fun v w : Word => hand v w 60 4
  have hr := fun v w : Word => hand v w 40 20
  have hs := fun v w : Word => hand v w 32 8
  have hd := fun v w : Word => hand v w 0 32
  apply word_eq_of_fields
  · exact (ho _ _).trans (by rw [← opOf, ← opOf]; simp)
  · exact (hr _ _).trans (by rw [← rzOf, ← rzOf]; simp)
  · exact (hs _ _).trans (by rw [← selOf, ← selOf]; simp)
  · exact (hd _ _).trans (by rw [← dataOf, ← dataOf]; simp)

/-- Every operation's word carries its opcode (R62). -/
@[simp] theorem opOf_encode (i : Instr) : opOf (encode i) = opcode i := by
  cases i <;> simp [encode, opcode]

/-- Every operation's word has the reserved field 0 (R68). -/
@[simp] theorem rzOf_encode (i : Instr) : rzOf (encode i) = 0 := by
  cases i <;> simp [encode]

/-- A PWM channel is read back from its SEL value (R64). -/
@[simp] theorem pwmOfSel_selOfPwm (c : PwmChannel) : pwmOfSel (selOfPwm c) = some c := by
  cases c <;> rfl

/-- SEL names a PWM channel exactly when it is that channel's number (R64). -/
theorem pwmOfSel_some {sel : BitVec 8} {c : PwmChannel} (h : pwmOfSel sel = some c) : sel = selOfPwm c := by
  unfold pwmOfSel at h
  split at h
  · cases h
    exact BitVec.eq_of_toNat_eq (by assumption)
  · cases h
    exact BitVec.eq_of_toNat_eq (by assumption)
  · cases h

/-- A status code is read back from its number (R33). -/
@[simp] theorem statusOfSel_code (st : Status) : statusOfSel (BitVec.ofNat 8 (statusCode st)) = some st := by
  cases st <;> rfl

/-- SEL names a status exactly when it is that status's number (R33). -/
theorem statusOfSel_some {sel : BitVec 8} {st : Status} (h : statusOfSel sel = some st) :
    sel = BitVec.ofNat 8 (statusCode st) := by
  unfold statusOfSel at h
  split at h <;> cases h <;> exact BitVec.eq_of_toNat_eq (by assumption)

/-- Every status number is at most 6 (R33). -/
theorem statusCode_le (st : Status) : statusCode st ≤ 6 := by
  cases st <;> decide

/-- The opcodes with a format are 0x1 to 0xC (R67). -/
theorem formatOf_none_iff (op : BitVec 4) : formatOf op = none ↔ op.toNat = 0 ∨ 13 ≤ op.toNat := by
  revert op
  decide

/-- What the decoder answers, check by check (R66). -/
theorem decode_cases (mc : Nat) (w : Word) :
    (formatOf (opOf w) = none ∧ decode mc w = .illegal .reservedOpcode) ∨
    ∃ f, formatOf (opOf w) = some f ∧
      ((rzOf w ≠ 0 ∨ (selUnused f = true ∧ selOf w ≠ 0) ∨ (dataUnused f = true ∧ dataOf w ≠ 0)) ∧
          decode mc w = .illegal .reservedBits ∨
        (rzOf w = 0 ∧ ¬ (selUnused f = true ∧ selOf w ≠ 0) ∧ ¬ (dataUnused f = true ∧ dataOf w ≠ 0)) ∧
          (selLegal mc f (selOf w) = false ∧ decode mc w = .illegal .badSelector ∨
            selLegal mc f (selOf w) = true ∧
              decode mc w = (match operationOf (opOf w) (selOf w) (dataOf w) with
                | some i => .instr i
                | none => .illegal .badSelector))) := by
  unfold decode
  cases hf : formatOf (opOf w) with
  | none => exact .inl ⟨rfl, rfl⟩
  | some f =>
    refine .inr ⟨f, rfl, ?_⟩
    by_cases h1 : rzOf w ≠ 0
    · exact .inl ⟨.inl h1, if_pos h1⟩
    · by_cases h2 : (selUnused f = true ∧ selOf w ≠ 0) ∨ (dataUnused f = true ∧ dataOf w ≠ 0)
      · exact .inl ⟨.inr h2, (if_neg h1).trans (if_pos h2)⟩
      · refine .inr ⟨⟨not_not.mp h1, fun h => h2 (.inl h), fun h => h2 (.inr h)⟩, ?_⟩
        by_cases hs : selLegal mc f (selOf w) = true
        · exact .inr ⟨hs, ((if_neg h1).trans (if_neg h2)).trans (if_pos hs)⟩
        · exact .inl ⟨by simpa using hs, ((if_neg h1).trans (if_neg h2)).trans (if_neg hs)⟩

end Sys2Proof
end

