-- ==== Sys2Proof/Laws/PerInstr.lean ====
section
/-! SUPPORT. What holds of every operation as syntax, one lemma per constructor. -/

namespace Sys2Proof.Laws.TableRow

/-- The word of an operation selects that operation's own row of spec/opcode_table.json (30_encoding.md R74), and its
reserved field is 0 (R68). -/
def Statement (i : Instr) : Prop :=
  encode i &&& (tableRow i).2 = (tableRow i).1 ∧ rzOf (encode i) = 0

/-- The mask of an L-format row drops SEL and keeps the rest (R74). -/
theorem mask_line (op : BitVec 4) (sel : BitVec 8) :
    wordOf op 0 sel 0 &&& 0xFFFFFF00FFFFFFFF = wordOf op 0 0 0 := by
  have h : (0xFFFFFF00FFFFFFFF : Word) = wordOf 0xF 0xFFFFF 0 0xFFFFFFFF := by decide
  rw [h, wordOf_and]
  congr 1
  · exact BitVec.and_allOnes
  · simp

theorem capen (l : Nat) : Statement (.capen l) :=
  ⟨(mask_line 0x1 _).trans (show wordOf 0x1 0 0 0 = 0x1000000000000000 by decide), by simp⟩

theorem capr (l : Nat) : Statement (.capr l) :=
  ⟨(mask_line 0x2 _).trans (show wordOf 0x2 0 0 0 = 0x2000000000000000 by decide), by simp⟩

theorem capf (l : Nat) : Statement (.capf l) :=
  ⟨(mask_line 0x3 _).trans (show wordOf 0x3 0 0 0 = 0x3000000000000000 by decide), by simp⟩

theorem rdclr (l : Nat) : Statement (.rdclr l) :=
  ⟨(mask_line 0x4 _).trans (show wordOf 0x4 0 0 0 = 0x4000000000000000 by decide), by simp⟩

theorem clrall : Statement .clrall := ⟨by decide, by simp⟩

theorem tbadv (d : U32) : Statement (.tbadv d) := by
  refine ⟨?_, by simp⟩
  have h : (0xFFFFFFFF00000000 : Word) = wordOf 0xF 0xFFFFF 0xFF 0 := by decide
  have h' : (0x6000000000000000 : Word) = wordOf 0x6 0 0 0 := by decide
  simp only [encode, tableRow]
  rw [h, h', wordOf_and]
  congr 1
  simp

theorem pwmset (c : PwmChannel) (w : S32) : Statement (.pwmset c w) := by
  refine ⟨?_, by simp⟩
  have h : (0xFFFFFFFE00000000 : Word) = wordOf 0xF 0xFFFFF 0xFE 0 := by decide
  have h' : (0x7000000000000000 : Word) = wordOf 0x7 0 0 0 := by decide
  simp only [encode, tableRow]
  rw [h, h', wordOf_and]
  congr 1
  · cases c <;> decide
  · simp

theorem pwmper (c : PwmChannel) : Statement (.pwmper c) := by
  cases c <;> exact ⟨by decide, by simp⟩

theorem stset (st : Status) : Statement (.stset st) := by
  cases st <;> exact ⟨by decide, by simp⟩

theorem ledstart : Statement .ledstart := ⟨by decide, by simp⟩

theorem ledtick : Statement .ledtick := ⟨by decide, by simp⟩

theorem ledblank : Statement .ledblank := ⟨by decide, by simp⟩

end Sys2Proof.Laws.TableRow
end

