-- ==== Sys2Proof/Laws/Step.lean ====
section
/-! SUPPORT. What one step of the total order can do (20_memory.md R55). -/

namespace Sys2Proof.Machine

/-- The first thing handed over is the next thing taken. -/
theorem takeEvent_cons {s : State} {e : Event} {rest : List Event} (h : s.inbox = e :: rest) :
    takeEvent s = (e, { s with inbox := rest }) := by
  simp [takeEvent, h]

/-- With nothing handed over, what comes next is free. -/
theorem takeEvent_nil {s : State} (h : s.inbox = []) :
    takeEvent s = (Config.issue s.draws, s.countDraw) := by
  simp [takeEvent, h]

/-- A word that spells an operation is executed. -/
theorem performWord_instr {w : Word} {i : Instr} {s : State} (h : decode s.cfg.maxChannels w = .instr i) :
    performWord w s = exec i s := by
  simp [performWord, h]

/-- A word that spells none is refused with its reason (R150). -/
theorem performWord_illegal {w : Word} {r : IllegalReason} {s : State}
    (h : decode s.cfg.maxChannels w = .illegal r) : performWord w s = .refused (.illegal r w) := by
  simp [performWord, h]

/-- If an event answers a next state, it was an operation that ran, a micro-step (its agent's own, or the one a busy
agent takes instead of its next operation), or the reset. -/
theorem performEvent_next {e : Event} {s t : State} (h : performEvent e s = .next t) :
    (∃ a w i, e = .op a w ∧ ¬ busy s a ∧ decode s.cfg.maxChannels w = .instr i ∧
        exec i { s with issuer := a } = .next t) ∨
    (∃ a w, e = .op a w ∧ busy s a ∧ t = microStep (s.hand (.op a w)) a) ∨
    (∃ a, e = .micro a ∧ t = microStep s a) ∨
    (e = .reset ∧ t = s.externalReset) := by
  cases e with
  | op a w =>
    simp only [performEvent] at h
    split at h
    · cases h
      exact .inr (.inl ⟨a, w, rfl, by assumption, rfl⟩)
    · refine .inl ⟨a, w, ?_⟩
      unfold performWord at h
      split at h
      · exact ⟨_, rfl, by assumption, by assumption, h⟩
      · cases h
  | micro a =>
    simp only [performEvent] at h
    cases h
    exact .inr (.inr (.inl ⟨a, rfl, rfl⟩))
  | reset =>
    simp only [performEvent] at h
    cases h
    exact .inr (.inr (.inr ⟨rfl, rfl⟩))

/-- A step is the next event of the total order. -/
theorem step_eq (s : State) : step s = performEvent (takeEvent s).1 (takeEvent s).2 := rfl

end Sys2Proof.Machine
end

