-- ==== Sys2Proof/Laws/Run.lean ====
section
/-! SUPPORT. What one operation can do to a record and to a channel's registers, and how sequences of operations come
apart. -/

namespace Sys2Proof.Machine

/-! ## One operation -/

/-- A line of the unit has a record (R19). -/
theorem Inv.line_in_table {s : State} {l : Nat} (h : Inv s) (hl : l < s.cfg.maxChannels) : l < s.caps.length := by
  have := h.tableSize
  omega

/-- Writing a record changes no other line's, and outside the table it changes none (R46). -/
theorem setRecord_cases (s : State) (k l : Nat) (r : CaptureRecord) :
    (s.setRecord k r).record l = s.record l ∨
      (l < s.caps.length ∧ k = l ∧ (s.setRecord k r).record l = r) := by
  by_cases hk : l = k
  · subst hk
    by_cases hl : l < s.caps.length
    · exact .inr ⟨hl, rfl, record_setRecord_self _ _ hl⟩
    · exact .inl (by rw [record_outside _ (by simpa using hl), record_outside _ (by simpa using hl)])
  · exact .inl (record_setRecord_ne _ _ hk)

/-- All that one operation can do to the record of line l (R40). -/
theorem exec_record {i : Instr} {s t : State} (h : exec i s = .next t) (l : Nat) :
    t.record l = s.record l ∨ (l < s.caps.length ∧
      ((i = .capen l ∧ t.record l = { s.record l with en := true }) ∨
        (i = .capr l ∧ t.record l = { s.record l with rise := s.tb }) ∨
        (i = .capf l ∧ Accepts s l ∧ t.record l = { s.record l with width := s.tb - (s.record l).rise }) ∨
        (i = .rdclr l ∧ t.record l = { s.record l with width := 0 }) ∨
        (i = .clrall ∧ t.record l = clearRecord (s.record l)))) := by
  cases i with
  | capen k =>
    obtain ⟨-, rfl⟩ := onLine_next h
    rcases setRecord_cases s k l { s.record k with en := true } with h | ⟨h1, rfl, h2⟩
    · exact .inl h
    · exact .inr ⟨h1, .inl ⟨rfl, h2⟩⟩
  | capr k =>
    obtain ⟨-, rfl⟩ := onLine_next h
    split
    · rcases setRecord_cases s k l { s.record k with rise := s.tb } with h | ⟨h1, rfl, h2⟩
      · exact .inl h
      · exact .inr ⟨h1, .inr (.inl ⟨rfl, h2⟩)⟩
    · exact .inl rfl
  | capf k =>
    obtain ⟨-, rfl⟩ := onLine_next h
    split
    · rename_i hacc
      rcases setRecord_cases s k l { s.record k with width := s.tb - (s.record k).rise } with h | ⟨h1, rfl, h2⟩
      · exact .inl h
      · exact .inr ⟨h1, .inr (.inr (.inl ⟨rfl, hacc, h2⟩))⟩
    · exact .inl rfl
  | rdclr k =>
    obtain ⟨-, rfl⟩ := onLine_next h
    rcases setRecord_cases s k l { s.record k with width := 0 } with h | ⟨h1, rfl, h2⟩
    · exact .inl h
    · exact .inr ⟨h1, .inr (.inr (.inr (.inl ⟨rfl, h2⟩)))⟩
  | clrall =>
    simp only [exec, execClrall] at h
    cases h
    split
    · rw [record_clearTable]
      by_cases hl : l < s.caps.length
      · exact .inr ⟨hl, .inr (.inr (.inr (.inr ⟨rfl, rfl⟩)))⟩
      · exact .inl (by rw [record_outside _ (by simpa using hl)]; rfl)
    · exact .inl rfl
  | pwmset c w =>
    cases h
    exact .inl (by simp)
  | pwmper c =>
    cases h
    exact .inl (by simp)
  | stset st =>
    simp only [exec, execStset] at h
    cases h
    left
    split
    · rfl
    · split <;> rfl
  | ledtick =>
    simp only [exec, execLedtick] at h
    cases h
    left
    split <;> rfl
  | _ =>
    cases h
    exact .inl rfl

/-- All that one operation can do to the registers of PWM channel c (R98). -/
theorem exec_pwm {i : Instr} {s t : State} (h : exec i s = .next t) (c : PwmChannel) :
    t.pwm c = s.pwm c ∨
      (∃ w, i = .pwmset c w ∧ t.pwm c = ⟨w, sMin (s.pwm c).lo w, sMax (s.pwm c).hi w⟩) ∨
      (i = .pwmper c ∧ t.pwm c = ⟨(s.pwm c).w, (s.pwm c).w, (s.pwm c).w⟩) := by
  cases i with
  | pwmset c' w =>
    cases h
    by_cases hc : c = c'
    · subst hc
      exact .inr (.inl ⟨w, rfl, by simp⟩)
    · exact .inl (pwm_setPwm_ne _ _ hc)
  | pwmper c' =>
    cases h
    by_cases hc : c = c'
    · subst hc
      exact .inr (.inr ⟨rfl, by simp⟩)
    · exact .inl (by simp [pwm_setPwm_ne _ _ hc])
  | capen l =>
    obtain ⟨-, rfl⟩ := onLine_next h
    exact .inl (by simp)
  | capr l =>
    obtain ⟨-, rfl⟩ := onLine_next h
    left
    split <;> simp
  | capf l =>
    obtain ⟨-, rfl⟩ := onLine_next h
    left
    split <;> simp
  | rdclr l =>
    obtain ⟨-, rfl⟩ := onLine_next h
    exact .inl (by simp)
  | clrall =>
    simp only [exec, execClrall] at h
    cases h
    left
    split <;> cases c <;> rfl
  | stset st =>
    simp only [exec, execStset] at h
    cases h
    left
    split
    · rfl
    · split <;> cases c <;> rfl
  | ledtick =>
    simp only [exec, execLedtick] at h
    cases h
    left
    split <;> cases c <;> rfl
  | _ =>
    cases h
    left
    cases c <;> rfl

/-! ## Sequences of operations -/

/-- A sequence whose first operation answers a next state goes on from it. -/
theorem runOps_cons {i : Instr} {is : List Instr} {s t : State} (h : exec i s = .next t) :
    runOps (i :: is) s = runOps is t := by
  simp [runOps, h]

/-- A sequence that answers a next state is one operation that does, and a sequence that does from there. -/
theorem runOps_cons_inv {i : Instr} {is : List Instr} {s u : State} (h : runOps (i :: is) s = .next u) :
    ∃ t, exec i s = .next t ∧ runOps is t = .next u := by
  simp only [runOps] at h
  split at h
  · exact ⟨_, by assumption, h⟩
  · cases h
  · cases h

/-- What every operation of a sequence keeps, the sequence keeps. -/
theorem runOps_invariant {P : State → Prop} {is : List Instr} {s t : State} (h : runOps is s = .next t)
    (hk : ∀ i ∈ is, ∀ u v, P u → exec i u = .next v → P v) (hs : P s) : P t := by
  induction is generalizing s with
  | nil =>
    cases h
    exact hs
  | cons i is ih =>
    obtain ⟨u, h1, h2⟩ := runOps_cons_inv h
    exact ih h2 (fun j hj => hk j (List.mem_cons_of_mem _ hj)) (hk i List.mem_cons_self s u hs h1)

/-- A sequence keeps what no operation changes. -/
theorem runOps_keeps {is : List Instr} {s t : State} (h : runOps is s = .next t) : Keeps s t := by
  refine runOps_invariant (P := Keeps s) h ?_ (keeps_refl s)
  intro i _ u v hu hx
  have k := exec_keeps hx
  obtain ⟨e1, h1⟩ := hu.events
  obtain ⟨e2, h2⟩ := k.events
  exact ⟨k.cfg.trans hu.cfg, k.inbox.trans hu.inbox, k.issuer.trans hu.issuer, k.size.trans hu.size,
    e1 ++ e2, by rw [h2, h1, List.append_assoc]⟩

/-! ## Steps -/

/-- Taking an event changes the inbox and the count of draws only. -/
theorem takeEvent_rest (s : State) : ∃ ib n, (takeEvent s).2 = { s with inbox := ib, draws := n } := by
  unfold takeEvent
  split
  · exact ⟨_, _, rfl⟩
  · exact ⟨s.inbox, s.draws + 1, rfl⟩

/-- All that a micro-step can be: one pair of the table cleared, one field of the descriptor written, or nothing. -/
theorem microStep_cases (s : State) (a : Agent) :
    (clearing s a ∧ microStep s a = s.clrMicro) ∨
      (¬ clearing s a ∧ describing s a ∧ microStep s a = s.descMicro) ∨
      (¬ busy s a ∧ microStep s a = s) := by
  by_cases hc : clearing s a
  · exact .inl ⟨hc, microStep_clearing hc⟩
  · by_cases hd : describing s a
    · exact .inr (.inl ⟨hc, hd, microStep_describing hc hd⟩)
    · have hb : ¬ busy s a := fun h => h.elim hc hd
      exact .inr (.inr ⟨hb, microStep_idle hb⟩)

/-- Taking the k-th member out of a list without repeats leaves the others. -/
theorem mem_eraseIdx_of_nodup {α : Type} {l : List α} (nd : l.Nodup) {k : Nat} (hk : k < l.length) (p : α) :
    p ∈ l.eraseIdx k ↔ p ∈ l ∧ p ≠ l[k] := by
  rw [List.mem_eraseIdx_iff_getElem]
  constructor
  · rintro ⟨j, hj, hne, rfl⟩
    exact ⟨List.getElem_mem hj, fun h => hne ((nd.getElem_inj_iff).mp h)⟩
  · rintro ⟨hp, hne⟩
    obtain ⟨j, hj, rfl⟩ := List.getElem_of_mem hp
    exact ⟨j, hj, fun h => hne (by subst h; rfl), rfl⟩

end Sys2Proof.Machine
end

