-- ==== Sys2Proof/Tests/Slice0.lean ====
section
/-! SUPPORT. The model's own tests: decoding of words written out from the spec, one step on a small state per vector of
95_test_vectors.md, and for every statement with hypotheses a state and operands that meet them together. -/

open Sys2Proof
open Sys2Proof.Machine

namespace Tests.Slice0

/-! ## Helpers -/

/-- The state `exec` leaves, if it leaves one. -/
def ran (i : Instr) (s : State) : Option State :=
  match exec i s with
  | .next t => some t
  | .fault _ => none
  | .refused _ => none

/-- The state a sequence of operations leaves, if it leaves one. -/
def ranAll (is : List Instr) (s : State) : Option State :=
  match runOps is s with
  | .next t => some t
  | .fault _ => none
  | .refused _ => none

/-- The state `step` leaves, if it leaves one. -/
def stepped (s : State) : Option State :=
  match step s with
  | .next t => some t
  | .fault _ => none
  | .refused _ => none

/-- A unit with the parameters of the vectors (R10), lines 0, 1 and 7 enabled, both channels at neutral. -/
def bench : State :=
  { State.resetAt Config.vectors 0 with
    tb := 2500,
    caps := [⟨true, 1000, 0⟩, ⟨true, 600, 1400⟩, resetRecord, resetRecord, resetRecord, resetRecord, resetRecord,
      ⟨true, 0, 0⟩],
    throttle := ⟨1500, 1500, 1500⟩, steering := ⟨1500, 1500, 1500⟩, ledOut := ⟨9, 9, 9⟩, draws := 0 }

/-- The same unit with both split modes `per_field` (R88, R114). -/
def splitBench : State :=
  { bench with cfg := { Config.vectors with clearAllMode := .perField, ledDescMode := .perField } }

/-- `bench` with the scheduler running at a slot. -/
def running (slot : BitVec 3) : State := { bench with ledRun := true, phase := slot }

/-- `s` with record 0 and TB replaced. -/
def line0 (s : State) (en : Bool) (rise width tb : U32) : State := { s.setRecord 0 ⟨en, rise, width⟩ with tb := tb }

/-- The invariant as checks that can be evaluated. -/
abbrev Sound (s : State) : Prop :=
  s.cfg.Legal ∧ s.caps.length = s.cfg.maxChannels ∧ EnvelopeHolds s.throttle ∧ EnvelopeHolds s.steering ∧
  (∀ r ∈ s.caps, r.en = false → r.rise = 0 ∧ r.width = 0) ∧
  (∀ p ∈ s.clrPending, p.1 < s.cfg.maxChannels) ∧ s.clrPending.Nodup ∧
  (s.cfg.clearAllMode = .atomic → s.clrPending = []) ∧
  (∀ p ∈ s.descPending, p.2 = descField (ledTable s.status) p.1) ∧ (s.descPending.map Prod.fst).Nodup ∧
  (s.cfg.ledDescMode = .atomic → s.descPending = []) ∧
  (∀ f ∈ [DescField.r, .g, .b, .pat],
    f ∈ s.descPending.map Prod.fst ∨ descField s.desc f = descField (ledTable s.status) f)

theorem inv_of_sound {s : State} (h : Sound s) : Inv s := by
  obtain ⟨h1, h2, h3, h4, h5, h6, h7, h8, h9, h10, h11, h12⟩ := h
  exact ⟨h1, h2, fun c => by cases c <;> assumption, h5, h6, h7, h8, h9, h10, h11,
    fun f => h12 f (by cases f <;> decide)⟩

theorem bench_inv : Inv bench := inv_of_sound (by decide)

theorem split_inv : Inv splitBench := inv_of_sound (by decide)

/-! ## Well-formedness: a term each check refuses (R46, R64) -/

theorem test_wellFormed_last_line : Instr.WellFormed 8 (.capen 7) := by decide

theorem test_illFormed_capen : ¬ Instr.WellFormed 8 (.capen 8) := by decide

theorem test_illFormed_capr : ¬ Instr.WellFormed 8 (.capr 8) := by decide

theorem test_illFormed_capf : ¬ Instr.WellFormed 5 (.capf 5) := by decide

theorem test_illFormed_rdclr : ¬ Instr.WellFormed 256 (.rdclr 256) := by decide

/-! ## Decoding: 95_test_vectors.md section 2, each field written out (R61): OP, RZ, SEL, DATA -/

theorem test_decode_fields :
    decode 8 (0b0001#4 ++ 0#20 ++ 4#8 ++ 0#32) = .instr (.capen 4) ∧
    decode 8 (0b0010#4 ++ 0#20 ++ 0#8 ++ 0#32) = .instr (.capr 0) ∧
    decode 8 (0b0011#4 ++ 0#20 ++ 3#8 ++ 0#32) = .instr (.capf 3) ∧
    decode 8 (0b0100#4 ++ 0#20 ++ 1#8 ++ 0#32) = .instr (.rdclr 1) ∧
    decode 8 (0b0101#4 ++ 0#20 ++ 0#8 ++ 0#32) = .instr .clrall ∧
    decode 8 (0b0110#4 ++ 0#20 ++ 0#8 ++ 1500#32) = .instr (.tbadv 1500) := by decide

theorem test_decode_fields_more :
    decode 8 (0b0111#4 ++ 0#20 ++ 1#8 ++ 0xFFFFFFFF#32) = .instr (.pwmset .steering (-1)) ∧
    decode 8 (0b1000#4 ++ 0#20 ++ 1#8 ++ 0#32) = .instr (.pwmper .steering) ∧
    decode 8 (0b1001#4 ++ 0#20 ++ 6#8 ++ 0#32) = .instr (.stset .hostDisarmed) ∧
    decode 8 (0b1010#4 ++ 0#20 ++ 0#8 ++ 0#32) = .instr .ledstart ∧
    decode 8 (0b1011#4 ++ 0#20 ++ 0#8 ++ 0#32) = .instr .ledtick ∧
    decode 8 (0b1100#4 ++ 0#20 ++ 0#8 ++ 0#32) = .instr .ledblank := by decide

theorem test_decode_lines :
    decode 8 0x1000000700000000 = .instr (.capen 7) ∧
    decode 8 0x1000000800000000 = .illegal .badSelector ∧
    decode 8 0x10000004000000FF = .illegal .reservedBits ∧
    decode 8 0x2000010000000000 = .illegal .reservedBits ∧
    decode 8 0x5000000100000000 = .illegal .reservedBits ∧
    decode 8 0x6000000100000000 = .illegal .reservedBits := by decide

theorem test_decode_values :
    decode 8 0x60000000FFFFFFFF = .instr (.tbadv 4294967295) ∧
    decode 8 0x7000000080000000 = .instr (.pwmset .throttle (BitVec.ofInt 32 (-2147483648))) ∧
    decode 8 0x700000007FFFFFFF = .instr (.pwmset .throttle 2147483647) ∧
    decode 8 0x8000000100000001 = .illegal .reservedBits ∧
    decode 8 0x9000000700000000 = .illegal .badSelector ∧
    decode 8 0x9000FF0700000000 = .illegal .reservedBits ∧
    decode 8 0xA000000000000001 = .illegal .reservedBits := by decide

theorem test_decode_reserved_opcodes :
    decode 8 0x0000000700000000 = .illegal .reservedOpcode ∧
    decode 8 0xD000000000000000 = .illegal .reservedOpcode ∧
    decode 8 0xE000000000000000 = .illegal .reservedOpcode ∧
    decode 8 0xF0000000FFFFFFFF = .illegal .reservedOpcode := by decide

theorem test_decodeTableWord :
    decodeTableWord 64 0x1000000400000000 = some (.capen 4) ∧
    decodeTableWord 64 0x9000000700000000 = none ∧ decodeTableWord 72 0xB000000000000000 = none := by decide

/-! ## Capture: vectors V1 to V24 -/

/-- V1. -/
theorem test_capen : (ran (.capen 4) bench).map (·.record 4) = some ⟨true, 0, 0⟩ := by decide

/-- V7. -/
theorem test_capr : (ran (.capr 0) (line0 bench true 0 7 1000)).map (·.record 0) = some ⟨true, 1000, 7⟩ := by decide

/-- V8. -/
theorem test_capr_disabled : ran (.capr 0) (line0 bench false 5 0 1000) = some (line0 bench false 5 0 1000) := by
  decide

/-- V9, V13. -/
theorem test_capf :
    (ran (.capf 0) bench).map (·.record 0) = some ⟨true, 1000, 1500⟩ ∧
    (ran (.capf 0) (line0 bench true 0 0 0xFFFFFFFF)).map (·.record 0) = some ⟨true, 0, 0xFFFFFFFF⟩ := by decide

/-- V10 (equal timestamps) and V11 (the wrap guard). -/
theorem test_capf_guard :
    (ran (.capf 0) (line0 bench true 2500 1500 2500)).map (·.record 0) = some ⟨true, 2500, 0⟩ ∧
    (ran (.capf 0) (line0 bench true 2501 1500 2500)).map (·.record 0) = some ⟨true, 2501, 1500⟩ := by decide

/-- V16. -/
theorem test_rdclr :
    (ran (.rdclr 1) bench).map (fun t => (t.record 1, t.events)) = some (⟨true, 600, 0⟩, [.rdclrResp 1 1400]) := by
  decide

/-- V17. -/
theorem test_rdclr_never_enabled : (ran (.rdclr 6) bench).map (·.events) = some [.rdclrResp 6 0] := by decide

/-- V18. -/
theorem test_clrall :
    (ran .clrall bench).map (fun t => (t.record 0, t.record 1, t.tb)) = some (⟨true, 0, 0⟩, ⟨true, 0, 0⟩, 2500) := by
  decide

/-- V22, its first steps: the micro-step of WIDTH[0], then CAPF 0, then the micro-step of RISE[0] leave WIDTH[0] = 600. -/
theorem test_clrall_perField :
    ((ran .clrall (line0 splitBench true 1000 0 1600)).bind (fun t => ran (.capf 0) (t.clrMicroAt 1))).map
      (fun t => ((t.clrMicroAt 0).record 0, (t.clrMicroAt 0).clrPending.length)) = some (⟨true, 0, 600⟩, 14) := by
  decide

/-- V3, V5. -/
theorem test_tbadv :
    (ran (.tbadv 0x20) { bench with tb := 0xFFFFFFF0 }).map (·.tb) = some 0x10 ∧
    (ran (.tbadv 0xFFFFFFFF) { bench with tb := 5 }).map (·.tb) = some 4 := by decide

/-! ## PWM output: vectors W1 to W11 -/

/-- W1 and the first half of W6. -/
theorem test_pwmset :
    (ran (.pwmset .throttle 1600) bench).map (·.throttle) = some ⟨1600, 1500, 1600⟩ ∧
    (ran (.pwmset .steering (-1)) bench).map (·.steering) = some ⟨-1, -1, 1500⟩ := by decide

/-- W2, W9. -/
theorem test_pwmper :
    (ran (.pwmper .throttle) bench).map (·.events) = some [.pwmPulse .throttle 1500] ∧
    (ran (.pwmper .steering) { bench with steering := ⟨20000, 20000, 20000⟩ }).map (·.events) =
      some [.pwmPulse .steering 20000] := by decide

/-- W5, its end: the next period's envelope starts at the second width. -/
theorem test_pwmper_envelope :
    (ran (.pwmper .throttle) { bench with throttle := ⟨1550, 1500, 1900⟩ }).map (·.throttle) =
      some ⟨1550, 1550, 1550⟩ := by decide

/-! ## Status and LED: vectors L1 to L17 -/

/-- L1, L3. -/
theorem test_stset :
    (ran (.stset .hostUserMode) bench).map (fun t => (t.status, t.desc, t.events)) =
      some (.hostUserMode, ⟨0, 255, 0, 0x18⟩, []) ∧
    (ran (.stset .calibrating) bench).map (·.desc) = some ⟨255, 255, 255, 0x55⟩ := by decide

/-- L17: after the micro-step of PAT a tick at slot 2 shows green, which neither status shows there. -/
theorem test_stset_perField :
    ((ran (.stset .rxError)
        { splitBench with status := .hostUserMode, desc := ⟨0, 255, 0, 0x18⟩, ledRun := true, phase := 2 }).bind
      (fun t => ran .ledtick (t.descMicroAt 3))).map (fun t => (t.events, t.descPending.map Prod.fst)) =
      some ([.ledWrite 0 255 0], [.r, .g, .b]) := by decide

/-- L12. -/
theorem test_ledstart :
    (ran .ledstart { bench with phase := 5 }).map (fun t => (t.ledRun, t.phase)) = some (true, 5) := by decide

/-- L6. -/
theorem test_ledtick_stopped : ran .ledtick { bench with phase := 3 } = some { bench with phase := 3 } := by decide

/-- L7, L8. -/
theorem test_ledtick :
    (ran .ledtick (running 1)).map (fun t => (t.events, t.phase)) = some ([.ledWrite 255 0 0], 2) ∧
    (ran .ledtick (running 7)).map (fun t => (t.events, t.phase)) = some ([.ledWrite 255 0 0], 0) := by decide

/-- L14. -/
theorem test_ledblank :
    (ran .ledblank bench).map (fun t => (t.events, t.ledOut)) = some ([.ledWrite 0 0 0], ⟨0, 0, 0⟩) := by decide

/-! ## The host and the assembler -/

/-- S6. -/
theorem test_host_command :
    commandDuty .vectors (some ("1600,1400,user".toList.map ascii)) hostCommandInit =
      (⟨1600, 1400⟩, [.stset .hostUserMode, .pwmset .throttle 1600, .pwmset .steering 1400]) := by decide

/-- S7. -/
theorem test_host_malformed :
    commandDuty .vectors (some ("abc".toList.map ascii)) ⟨1600, 1400⟩ = (⟨1600, 1400⟩, []) := by decide

/-- S10. -/
theorem test_host_telemetry :
    telemetryLine 12345 ⟨1600, 1400, 0, 0, 0⟩ 512 300 = "12345,1600,1400,0,0,0,512,300\n".toList.map ascii ∧
    sentinelLine 12345 = "12345,-1,-1,-1,-1,-1,-1,-1\n".toList.map ascii := by decide

/-- A host between runs that has received these bytes. -/
def hostWith (bytes : List Byte) : HostState :=
  { command := hostCommandInit, sensorLeft := 1, sensorRight := 2, input := bytes, output := [], clock := 0,
    kept := .zero, todo := [] }

/-- What is left after the controller's step, if it leaves something. -/
def hostRan (e : ControllerEvent) (k : Controller) : Option Controller :=
  match k.step e with
  | .next t => some t
  | .fault _ => none
  | .refused _ => none

/-- S6 as a run: both readings refreshed, one line read, its operations left to do, and the next line left unread (R130,
R132, R145). -/
theorem test_host_command_run :
    (hostWith ("1600,1400,user\n7".toList.map ascii)).beginCommand .vectors 512 300 =
      { hostWith ("7".toList.map ascii) with
        command := ⟨1600, 1400⟩, sensorLeft := 512, sensorRight := 300,
        todo := [.issue (.stset .hostUserMode), .issue (.pwmset .throttle 1600), .issue (.pwmset .steering 1400)] } := by
  decide

/-- R130, R145: without a newline the run refreshes the readings and does nothing else. -/
theorem test_host_command_run_noLine :
    (hostWith ("1600".toList.map ascii)).beginCommand .vectors 512 300 =
      { hostWith ("1600".toList.map ascii) with sensorLeft := 512, sensorRight := 300 } := by decide

/-- R146: a telemetry run does not begin while a command run has an operation left. -/
theorem test_host_runs_contiguous :
    (hostRan (.telemetryRun 5) ⟨bench, { hostWith [] with todo := [.issue .ledblank] }⟩).map (·.host) =
      some { hostWith [] with todo := [.issue .ledblank] } := by decide

/-- R146 with R88: a command run reads no line while the CLRALL that ended a telemetry run is in progress, and begins when
it is complete. -/
theorem test_host_runs_never_overlap :
    (hostRan (.commandRun 512 300) ⟨{ splitBench with clrPending := [(0, .rise)], clrBy := .host },
        hostWith ("1,2,user\n".toList.map ascii)⟩).map (·.host) = some (hostWith ("1,2,user\n".toList.map ascii)) ∧
    (hostRan (.commandRun 512 300) ⟨splitBench, hostWith ("1,2,user\n".toList.map ascii)⟩).map
      (fun t => (t.host.input, t.host.command)) = some ([], ⟨1, 2⟩) := by decide

/-- R139: the read of steering-in (line 1 of the vectors) keeps the width that was there, 1400, and clears it. -/
theorem test_host_read :
    (hostRan .hostStep ⟨bench, { hostWith [] with todo := [.read .steeringIn, .report] }⟩).map
      (fun t => (t.host.kept, t.host.todo, t.unit.record 1)) =
      some (⟨0, 1400, 0, 0, 0⟩, [.report], ⟨true, 600, 0⟩) := by decide

/-- S10, and signal loss (S8), as the end of a run: the readings reported are those last refreshed. -/
theorem test_host_report :
    (hostRan .hostStep ⟨bench, { hostWith [] with
        clock := 12345, kept := ⟨1600, 1400, 0, 0, 0⟩, sensorLeft := 512, sensorRight := 300,
        todo := [.report] }⟩).map (fun t => (t.host.output, t.host.todo)) =
      some ("12345,1600,1400,0,0,0,512,300\n".toList.map ascii, []) ∧
    (hostRan .hostStep ⟨bench, { hostWith [] with clock := 12345, todo := [.report] }⟩).map
      (fun t => (t.host.output, t.host.todo)) =
      some ("12345,-1,-1,-1,-1,-1,-1,-1\n".toList.map ascii, [.issue (.stset .rxError)]) := by decide

/-- The examples of R76. -/
theorem test_assembler :
    assembleLine .vectors "CAPEN throttle-in".toList = some [.capen 0] ∧
    assembleLine .vectors "PWMSET steering, 1400 ; a comment".toList = some [.pwmset .steering 1400] ∧
    assembleLine .vectors "STSET host-user-mode".toList = some [.stset .hostUserMode] ∧
    assembleLine .vectors "TBADV 0x10".toList = some [.tbadv 16] := by decide

/-- R77, with the LINE_OF of the vectors. -/
theorem test_assembler_pseudo :
    assembleLine .vectors "CAPEN.MON".toList = some [.capen 0, .capen 1, .capen 2, .capen 3, .capen 4] ∧
    assembleLine .vectors "PWMNEUTRAL".toList = some [.pwmset .throttle 1500, .pwmset .steering 1500] := by decide

/-! ## Witnesses: for each statement with hypotheses, what meets them together, one part per clause -/

theorem witness_EncodeAndDecodeAreInverse :
    (0 < 256 ∧ 255 < 256) ∧ (256 ≤ 256 ∧ Instr.WellFormed 256 (.capen 255)) ∧
    decode 8 0x60000000FFFFFFFF = .instr (.tbadv 4294967295) := by decide

theorem witness_WordIsOneOperationOrRefused :
    8 ≤ 256 ∧ Instr.WellFormed 8 (.rdclr 7) ∧ encode (.rdclr 7) = 0x4000000700000000 ∧
    decode 8 0x4000000800000000 = .illegal .badSelector ∧ bench.cfg.maxChannels = 8 := by decide

theorem witness_ReservedOpcodesRefused :
    opOf 0x0FFFFFFFFFFFFFFF = 0x0 ∧ opOf 0xD000000000000000 = 0xD ∧ opOf 0xE000000000000000 = 0xE ∧
    opOf 0xFFFFFFFFFFFFFFFF = 0xF := by decide

theorem witness_ReservedBitsRefused :
    (opOf 0x1000010000000000 = 0x1 ∧ rzOf 0x1000010000000000 ≠ 0) ∧
    (opOf 0xC000000100000000 = 0xC ∧ selOf 0xC000000100000000 ≠ 0) ∧
    (opOf 0x8000000080000000 = 0x8 ∧ dataOf 0x8000000080000000 ≠ 0) := by decide

theorem witness_IndexOutsideItsSpaceRefused :
    (rzOf 0x4000000800000000 = 0 ∧ dataOf 0x4000000800000000 = 0 ∧ opOf 0x4000000800000000 = 0x4 ∧
      bench.cfg.maxChannels ≤ (selOf 0x4000000800000000).toNat) ∧
    (rzOf 0x7000000200000001 = 0 ∧ opOf 0x7000000200000001 = 0x7 ∧ 1 < (selOf 0x7000000200000001).toNat) ∧
    (rzOf 0x8000000200000000 = 0 ∧ dataOf 0x8000000200000000 = 0 ∧ opOf 0x8000000200000000 = 0x8 ∧
      1 < (selOf 0x8000000200000000).toNat) ∧
    (rzOf 0x9000000700000000 = 0 ∧ dataOf 0x9000000700000000 = 0 ∧ opOf 0x9000000700000000 = 0x9 ∧
      6 < (selOf 0x9000000700000000).toNat) := by decide

/-- The second clause: an operation that answers a next state, and a line outside the table. -/
theorem witness_IndexOutsideItsSpaceRefused_table :
    bench.caps.length = bench.cfg.maxChannels ∧ bench.cfg.maxChannels ≤ 8 ∧ ∃ t, exec (.capen 7) bench = .next t :=
  ⟨by decide, by decide, _, rfl⟩

theorem witness_TableRowsSelectOperations :
    decode 8 0x9000000600000000 = .instr (.stset .hostDisarmed) ∧
    0x9000000700000000 &&& (tableRow (.stset .disconnected)).2 = (tableRow (.stset .disconnected)).1 ∧
    0x1000000800000000 &&& (tableRow (.capen 0)).2 = (tableRow (.capen 0)).1 ∧
    0x70000001FFFFFFFF &&& (tableRow (.pwmset .throttle 0)).2 = (tableRow (.pwmset .throttle 0)).1 := by decide

/-- `bench` with one operation word handed over. -/
def handed (a : Agent) (w : Word) : State := { bench with inbox := [.op a w] }

theorem witness_StepRunsDecodedOperation :
    (handed (.line 0) 0x3000000000000000).inbox = .op (.line 0) 0x3000000000000000 :: [] ∧
    ¬ busy (handed (.line 0) 0x3000000000000000) (.line 0) ∧
    decode (handed (.line 0) 0x3000000000000000).cfg.maxChannels 0x3000000000000000 = .instr (.capf 0) := by decide

theorem witness_PlacedWordRunsNext :
    decode bench.cfg.maxChannels (BitVec.ofNat 64 0xB000000000000000) = .instr .ledtick := by decide

theorem witness_IllegalWordEndsTheRun :
    (handed .host 0x9000000700000000).inbox = .op .host 0x9000000700000000 :: [] ∧
    ¬ busy (handed .host 0x9000000700000000) .host ∧
    decode (handed .host 0x9000000700000000).cfg.maxChannels 0x9000000700000000 = .illegal .badSelector := by decide

/-- `splitBench` while HOST's CLRALL is in progress with two pairs left, and HOST's next operation waits. -/
def clearingHost : State :=
  { splitBench with clrPending := [(0, .rise), (7, .width)], clrBy := .host, inbox := [.op .host 0xC000000000000000] }

/-- `splitBench` while HOST's STSET rx-error is in progress with the pattern left to write. -/
def describingHost : State :=
  { splitBench with status := .rxError, descPending := [(.pat, 0x33)], descBy := .host,
                    inbox := [.op .host 0xC000000000000000] }

/-- The same with green left to write as well, still at another status's value. -/
def tornHost : State :=
  { describingHost with desc := ⟨255, 9, 0, 0x55⟩, descPending := [(.pat, 0x33), (.g, 0)] }

theorem clearingHost_inv : Inv clearingHost := inv_of_sound (by decide)

theorem describingHost_inv : Inv describingHost := inv_of_sound (by decide)

theorem witness_BusyAgentWaits :
    clearingHost.inbox = .op .host 0xC000000000000000 :: [] ∧ busy clearingHost .host ∧
    describingHost.inbox = .op .host 0xC000000000000000 :: [] ∧ busy describingHost .host := by decide

/-- The micro event, for an agent that clears, one that describes and one that does neither. -/
theorem witness_BusyAgentWaits_micro :
    ({ clearingHost with inbox := [.micro .host] } : State).inbox = .micro .host :: [] ∧
    clearing clearingHost .host ∧ (¬ clearing describingHost .host ∧ describing describingHost .host) ∧
    ¬ busy clearingHost .clock := by decide

/-- The lines at both ends of the table, one enabled and one not. -/
theorem witness_CapenEnablesLine :
    Inv bench ∧ 7 < bench.cfg.maxChannels ∧ (bench.record 7).en = true ∧ (bench.record 6).en = false ∧
    ∃ t, exec .clrall bench = .next t :=
  ⟨bench_inv, by decide, by decide, by decide, _, rfl⟩

theorem witness_RisingEdgeStoresTimebase :
    Inv bench ∧ 7 < bench.cfg.maxChannels ∧ (bench.record 7).en = true ∧ (bench.record 6).en = false :=
  ⟨bench_inv, by decide, by decide, by decide⟩

theorem witness_FallingEdgeMeasuresWidth :
    Inv bench ∧ 0 < bench.cfg.maxChannels ∧
    ((bench.record 0).en = true ∧ (bench.record 0).rise.toNat ≤ bench.tb.toNat) ∧
    ((line0 bench true 2500 7 2500).record 0).en = true ∧
    (line0 bench true 2500 7 2500).tb = ((line0 bench true 2500 7 2500).record 0).rise ∧
    ((bench.record 7).en = true ∧ (bench.record 7).rise = 0) ∧
    (line0 bench true 2501 7 2500).tb.toNat < ((line0 bench true 2501 7 2500).record 0).rise.toNat ∧
    (bench.record 6).en = false :=
  ⟨bench_inv, by decide, by decide, by decide, by decide, by decide, by decide, by decide⟩

theorem witness_FallingEdgeMeasuresWidth_inv :
    Inv (line0 bench true 2500 7 2500) ∧ Inv (line0 bench true 2501 7 2500) :=
  ⟨inv_of_sound (by decide), inv_of_sound (by decide)⟩

theorem witness_EdgesCompleteSilently : 7 < bench.cfg.maxChannels ∧ (bench.record 6).en = false := by decide

theorem witness_ReadAndClearReturnsWidth :
    Inv bench ∧ 1 < bench.cfg.maxChannels ∧ (bench.record 1).width = 1400 ∧ (bench.record 6).en = false :=
  ⟨bench_inv, by decide, by decide, by decide⟩

theorem witness_ClearAllAtomic :
    Inv bench ∧ bench.cfg.clearAllMode = .atomic ∧ 7 < bench.cfg.maxChannels ∧ (bench.record 7).en = true :=
  ⟨bench_inv, by decide, by decide, by decide⟩

theorem witness_PerFieldClearBegins : splitBench.cfg.clearAllMode = .perField := by decide

theorem witness_ClearMicroStepClearsOnePair : Inv clearingHost ∧ clearingHost.clrPending ≠ [] :=
  ⟨clearingHost_inv, by decide⟩

theorem witness_UninterruptedClearEqualsAtomic :
    Inv splitBench ∧ splitBench.cfg.clearAllMode = .perField ∧ ∃ b, exec .clrall splitBench = .next b :=
  ⟨split_inv, by decide, _, rfl⟩

/-- Record 0 rose at `rise`, and `length` microseconds have passed (R89). -/
abbrev afterPulse (s : State) (length : Nat) : Prop :=
  (s.record 0).en = true ∧ s.tb.toNat = ((s.record 0).rise.toNat + length) % 2 ^ 32

/-- The longest pulse reported exactly, the shortest one that wraps, and a pulse of 2^32 with its timestamp at least and
below the stored one. -/
theorem witness_PulseReportedExactlyOrDropped :
    (afterPulse (line0 bench true 1 0 0xFFFFFFFF) (2 ^ 32 - 2) ∧ 1 + (2 ^ 32 - 2) < 2 ^ 32) ∧
    (afterPulse (line0 bench true 1 0 0) (2 ^ 32 - 1) ∧ 2 ^ 32 ≤ 1 + (2 ^ 32 - 1)) ∧
    (afterPulse (line0 bench true 5 0 5) (2 ^ 32) ∧ 5 ≤ (line0 bench true 5 0 5).tb.toNat) ∧
    (afterPulse (line0 bench true 5 0 4) (2 ^ 33 - 1) ∧ (line0 bench true 5 0 4).tb.toNat < 5) := by decide

theorem witness_PulseReportedExactlyOrDropped_inv :
    Inv (line0 bench true 1 0 0xFFFFFFFF) ∧ Inv (line0 bench true 1 0 0) ∧ Inv (line0 bench true 5 0 5) ∧
    Inv (line0 bench true 5 0 4) :=
  ⟨inv_of_sound (by decide), inv_of_sound (by decide), inv_of_sound (by decide), inv_of_sound (by decide)⟩

/-- R90's own list of what may fall between the two reads: a CAPR, a TBADV and a CLRALL. -/
theorem witness_SecondReadReturnsZero :
    Inv bench ∧ ∃ t u, exec (.rdclr 1) bench = .next t ∧ runOps [.capr 1, .tbadv 50, .clrall] t = .next u ∧
      ¬ acceptsCapf 1 [.capr 1, .tbadv 50, .clrall] t := by
  refine ⟨bench_inv, _, _, rfl, rfl, ?_⟩
  rintro (⟨h, -⟩ | ⟨h, -⟩ | ⟨h, -⟩ | h)
  · cases h
  · cases h
  · cases h
  · exact h

theorem witness_SecondReadReturnsZero_empty :
    Inv bench ∧ 7 < bench.cfg.maxChannels ∧ (bench.record 7).width = 0 ∧ runOps [] bench = .next bench ∧
      ¬ acceptsCapf 7 [] bench :=
  ⟨bench_inv, by decide, by decide, rfl, id⟩

theorem witness_FallingEdgeWithoutRisingEdge :
    Inv bench ∧ 7 < bench.cfg.maxChannels ∧ (bench.record 7).rise = 0 ∧ Instr.capr 7 ∉ [Instr.capr 0, .tbadv 1] ∧
    ∃ t, runOps [.capr 0, .tbadv 1] bench = .next t ∧ (t.record 7).en = true :=
  ⟨bench_inv, by decide, by decide, by decide, _, rfl, by decide⟩

theorem witness_RepeatedEdgesOfOneKind :
    Inv bench ∧ 0 < bench.cfg.maxChannels ∧
    (∃ t u, exec (.capr 0) bench = .next t ∧ runOps [.tbadv 50] t = .next u ∧ (u.record 0).en = true) ∧
    (∃ t u, exec (.capf 0) bench = .next t ∧ runOps [.tbadv 500] t = .next u ∧
      Instr.capr 0 ∉ [Instr.tbadv 500] ∧ Instr.clrall ∉ [Instr.tbadv 500] ∧ (u.record 0).en = true ∧
      (bench.record 0).rise.toNat ≤ u.tb.toNat) ∧
    (∃ t u, exec (.capf 0) bench = .next t ∧ runOps [.tbadv 0xFFFFFA00] t = .next u ∧ (u.record 0).en = true ∧
      u.tb.toNat < (bench.record 0).rise.toNat) :=
  ⟨bench_inv, by decide, ⟨_, _, rfl, rfl, by decide⟩,
    ⟨_, _, rfl, rfl, by decide, by decide, by decide, by decide⟩, ⟨_, _, rfl, rfl, by decide, by decide⟩⟩

/-- Two states with the same record 7 and TB that differ elsewhere, two that differ in TB for a RDCLR, and a CAPEN that
changes record 6. -/
theorem witness_LinesAreIndependent :
    Inv bench ∧ Inv { bench with ledRun := true } ∧ 7 < bench.cfg.maxChannels ∧
    bench.record 7 = { bench with ledRun := true }.record 7 ∧ bench.tb = { bench with ledRun := true }.tb ∧
    (Inv { bench with tb := 7 } ∧ bench.record 7 = { bench with tb := 7 }.record 7 ∧
      ¬ (Instr.rdclr 7 = .capr 7 ∨ Instr.rdclr 7 = .capf 7)) ∧
    ∃ t, exec (.capen 6) bench = .next t ∧ t.record 6 ≠ bench.record 6 :=
  ⟨bench_inv, inv_of_sound (by decide), by decide, by decide, by decide,
    ⟨inv_of_sound (by decide), by decide, by decide⟩, _, rfl, by decide⟩

theorem witness_WidthComesFromAcceptedFallingEdge :
    Inv (handed (.line 0) 0x3000000000000000) ∧ ((handed (.line 0) 0x3000000000000000).record 0).width = 0 ∧
    ∃ t, step (handed (.line 0) 0x3000000000000000) = .next t ∧ (t.record 0).width ≠ 0 :=
  ⟨inv_of_sound (by decide), by decide, _, rfl, by decide⟩

theorem witness_PwmsetStoresWidth : EnvelopeHolds (bench.pwm .steering) ∧ 1500 = (bench.pwm .steering).w := by decide

/-- An envelope that takes in the whole period, and one that leaves it by one microsecond. -/
theorem witness_PwmperEmitsOnePulse :
    EnvelopeHolds (⟨20000, 0, 20000⟩ : PwmRegs) ∧ EnvelopeHolds (⟨-1, -1, 20000⟩ : PwmRegs) ∧
    EnvelopeHolds (⟨1500, 0, 20001⟩ : PwmRegs) ∧
    ({ bench with steering := ⟨-1, -1, 20000⟩ } : State).pwm .steering = ⟨-1, -1, 20000⟩ := by decide

/-- The greatest width in range. -/
theorem witness_SteadyStatePulse :
    0 ≤ (({ bench with throttle := ⟨20000, 0, 20000⟩ } : State).pwm .throttle).w.toInt ∧
    (({ bench with throttle := ⟨20000, 0, 20000⟩ } : State).pwm .throttle).w.toInt ≤ bench.cfg.pwmPeriodUs ∧
    (∀ w, Instr.pwmset .throttle w ∉ [Instr.pwmset .steering 1, .pwmper .throttle]) ∧
    ∃ t u, exec (.pwmper .throttle) { bench with throttle := ⟨20000, 0, 20000⟩ } = .next t ∧
      runOps [.pwmset .steering 1, .pwmper .throttle] t = .next u :=
  ⟨by decide, by decide, by simp, _, _, rfl, rfl⟩

theorem witness_NewWidthFromTheNextPeriodOn :
    bench.pwm .throttle = ⟨1500, 1500, 1500⟩ ∧ (1500 : Int) ≤ bench.cfg.pwmPeriodUs ∧
    (20000 : S32).toInt ≤ bench.cfg.pwmPeriodUs ∧
    ∃ s1 s2, exec (.pwmset .throttle 20000) bench = .next s1 ∧ runOps [.pwmper .steering] s1 = .next s2 ∧
      (∀ w, Instr.pwmset .throttle w ∉ [Instr.pwmper .steering]) ∧
      Instr.pwmper .throttle ∉ [Instr.pwmper .steering] ∧
      ∃ s3, exec (.pwmper .throttle) s2 = .next s3 ∧ ∃ s4, runOps [.pwmper .throttle] s3 = .next s4 ∧
        ∀ w, Instr.pwmset .throttle w ∉ [Instr.pwmper .throttle] :=
  ⟨by decide, by decide, by decide, _, _, rfl, rfl, by simp, by simp, _, rfl, _, rfl, by simp⟩

theorem witness_ChannelsAreIndependent :
    bench.pwm .throttle = { bench with steering := ⟨-1, -1, 1500⟩ }.pwm .throttle ∧
    bench.cfg.pwmPeriodUs = { bench with steering := ⟨-1, -1, 1500⟩ }.cfg.pwmPeriodUs ∧
    bench.draws = { bench with steering := ⟨-1, -1, 1500⟩ }.draws := by decide

theorem witness_EnvelopeTakesInWidth :
    (∀ c, EnvelopeHolds ((handed .host 0x70000001FFFFFFFF).pwm c)) ∧
    ∃ t, step (handed .host 0x70000001FFFFFFFF) = .next t :=
  ⟨fun c => by cases c <;> decide, _, rfl⟩

theorem witness_StatusTransitionAtomic :
    bench.cfg.ledDescMode = .atomic ∧ Status.hostDisarmed ≠ bench.status ∧ Status.disconnected = bench.status := by
  decide

theorem witness_SameStatusChangesNothing : Status.disconnected = bench.status := by decide

theorem witness_PerFieldTransitionBegins :
    splitBench.cfg.ledDescMode = .perField ∧ Status.hostDisarmed ≠ splitBench.status := by decide

/-- One field pending, and two of which one is still old. -/
theorem witness_UninterruptedTransitionEqualsAtomic_micro :
    (Inv describingHost ∧ describingHost.descPending ≠ []) ∧
    (Inv tornHost ∧ tornHost.descPending ≠ []) :=
  ⟨⟨describingHost_inv, by decide⟩, inv_of_sound (by decide), by decide⟩

theorem witness_UninterruptedTransitionEqualsAtomic :
    splitBench.cfg.ledDescMode = .perField ∧ Status.hostInit ≠ splitBench.status ∧
    ¬ clearing splitBench splitBench.issuer ∧ ∃ b, exec (.stset .hostInit) splitBench = .next b :=
  ⟨by decide, by decide, by decide, _, rfl⟩

theorem witness_TickWritesSlotColour : (running 7).ledRun = true ∧ bench.ledRun = false := by decide

theorem witness_EightTicksAreOnePattern : (running 5).ledRun = true := by decide

theorem witness_LedstartStartsScheduler : (running 7).ledRun = true := by decide

theorem witness_LedblankWritesBlack : (running 0).ledRun = true := by decide

theorem witness_StatusShownAtNextTick :
    (running 2).cfg.ledDescMode = .atomic ∧ (running 2).ledRun = true ∧ Status.rxError ≠ (running 2).status ∧
    ∃ t u, exec (.stset .rxError) (running 2) = .next t ∧ runOps [.tbadv 5, .ledstart] t = .next u ∧
      Instr.ledtick ∉ [Instr.tbadv 5, .ledstart] ∧ Instr.ledblank ∉ [Instr.tbadv 5, .ledstart] ∧
      ∀ st, Instr.stset st ∉ [Instr.tbadv 5, .ledstart] :=
  ⟨by decide, by decide, by decide, _, _, rfl, rfl, by decide, by decide, fun st => by cases st <;> decide⟩

theorem witness_OnlyStsetChangesStatus :
    (∃ t, step (handed .host 0x9000000600000000) = .next t ∧
      t.status ≠ (handed .host 0x9000000600000000).status) ∧
    (∃ t, step { bench with status := .rxError, inbox := [.reset] } = .next t ∧ t.status ≠ .rxError) :=
  ⟨⟨_, rfl, by decide⟩, _, rfl, by decide⟩

theorem witness_TicksKeepDescriptor :
    (Inv bench ∧ bench.cfg.ledDescMode = .atomic) ∧ (Inv splitBench ∧ splitBench.descPending = []) :=
  ⟨⟨bench_inv, by decide⟩, split_inv, by decide⟩

/-- An operation of each family that answers a next state. -/
theorem witness_FamiliesAreSeparate :
    (∃ t, exec .clrall bench = .next t) ∧ (∃ t, exec (.pwmset .steering 7) bench = .next t ∧ t.steering ≠ bench.steering) ∧
    ∃ t, exec .ledblank bench = .next t :=
  ⟨⟨_, rfl⟩, ⟨_, rfl, by decide⟩, _, rfl⟩

theorem witness_FieldsWrittenOnlyByTheirOperations :
    ∃ t, exec (.capf 0) bench = .next t ∧ (t.record 0).width ≠ (bench.record 0).width := ⟨_, rfl, by decide⟩

theorem witness_ParametersNeverChange : ∃ t, step { bench with inbox := [.reset] } = .next t := ⟨_, rfl⟩

theorem witness_ResetMeetsInvariant : Config.vectors.Legal := vectors_legal

/-- A step of each kind: an operation, a micro-step of each split operation, and the reset. -/
theorem witness_StepKeepsInvariant :
    (Inv (handed .host 0x5000000000000000) ∧ ∃ t, step (handed .host 0x5000000000000000) = .next t) ∧
    (Inv clearingHost ∧ ∃ t, step clearingHost = .next t) ∧ (Inv describingHost ∧ ∃ t, step describingHost = .next t) ∧
    (Inv { bench with inbox := [.reset] } ∧ ∃ t, step { bench with inbox := [.reset] } = .next t) :=
  ⟨⟨inv_of_sound (by decide), _, rfl⟩, ⟨clearingHost_inv, _, rfl⟩, ⟨describingHost_inv, _, rfl⟩,
    inv_of_sound (by decide), _, rfl⟩

theorem witness_DecodedOperationNeverFails :
    decode bench.cfg.maxChannels 0x2000000700000000 = .instr (.capr 7) := by decide

theorem witness_EnvironmentIsNeverRefused :
    FromEnvironment bench.cfg.maxChannels (.op (.line 7) 0x2000000700000000) ∧
    FromEnvironment bench.cfg.maxChannels (.micro .host) ∧ FromEnvironment bench.cfg.maxChannels .reset :=
  ⟨⟨.capr 7, by decide, by decide⟩, trivial, trivial⟩

theorem witness_ExternalResetRestoresResetState :
    ({ clearingHost with inbox := [.reset, .micro .host] } : State).inbox = .reset :: [.micro .host] := by decide

theorem witness_SettledDescriptorIsTheEncoders :
    Inv describingHost ∧ ∃ t, step describingHost = .next t ∧ t.descPending = [] :=
  ⟨describingHost_inv, _, rfl, by decide⟩

/-- R133's four words, and two that are none of them. -/
theorem witness_ParsedLineIssuesCommands_words :
    statusWord ("init".toList.map ascii) = some .hostInit ∧
    statusWord ("disarmed".toList.map ascii) = some .hostDisarmed ∧
    statusWord ("user".toList.map ascii) = some .hostUserMode ∧
    statusWord ("local".toList.map ascii) = some .hostLocalMode ∧
    statusWord ("Init".toList.map ascii) = none ∧ statusWord ("users".toList.map ascii) = none := by decide

theorem witness_ParsedLineIssuesCommands :
    parseLine (("-1,1400,user".toList.map ascii).take Config.vectors.hostLineMax) =
      some (-1, 1400, "user".toList.map ascii) ∧
    statusWord ("user".toList.map ascii) = some .hostUserMode ∧ statusWord ("User".toList.map ascii) = none ∧
    parseLine (("1,2,User".toList.map ascii).take Config.vectors.hostLineMax) =
      some (1, 2, "User".toList.map ascii) := by decide

/-- Other widths not 0, in either clear variant (R143). -/
theorem witness_SignalLossSendsSentinel :
    (⟨0, 1400, 1000, 2000, 350⟩ : Widths).throttle = 0 ∧ Config.vectors.telemClear = .rdclr ∧
    Instr.stset .rxError ∈
      (telemetryReport { Config.vectors with telemClear := .readThenClrall } 7 ⟨0, 1400, 1000, 2000, 350⟩ 1 2).2 := by
  decide

theorem witness_BootSequenceIsWellFormed : Config.vectors.Legal := vectors_legal

end Tests.Slice0
end

/-! PROOFS. The statements of 00_scope.md: how a word handed over becomes an operation (R6, R8), that no step changes the
parameters (R10), and that the environment of R7 is never refused (R149, R150). -/

namespace Sys2Proof

/-! ## Decoded operations are well-formed (30_encoding.md R64, R66) -/

/-- The operand check that the decoder makes by format (R64) is the one that the operation's constructor asks for (R46). -/
theorem operationOf_wellFormed {mc : Nat} {op : BitVec 4} {sel : BitVec 8} {data : BitVec 32} {f : Format} {i : Instr}
    (hf : formatOf op = some f) (hs : selLegal mc f sel = true) (ho : operationOf op sel data = some i) :
    i.WellFormed mc := by
  have line_legal (h : formatOf op = some .l) : sel.toNat < mc := by
    cases hf.symm.trans h
    simpa [selLegal] using hs
  unfold operationOf at ho
  split at ho
  case h_1 hop | h_2 hop | h_3 hop | h_4 hop =>
    cases ho
    exact decide_eq_true (line_legal (by simp [formatOf, hop]))
  case h_7 | h_8 | h_9 =>
    obtain ⟨_, -, rfl⟩ := Option.map_eq_some_iff.mp ho
    rfl
  case h_5 | h_6 | h_10 | h_11 | h_12 =>
    cases ho
    rfl
  case h_13 => cases ho

/-- Every operation the decoder answers has its operands inside their spaces (R46, R66). -/
theorem decode_wellFormed {mc : Nat} {w : Word} {i : Instr} (h : decode mc w = .instr i) : i.WellFormed mc := by
  rcases decode_cases mc w with ⟨-, hd⟩ | ⟨f, hf, ⟨-, hd⟩ | ⟨-, ⟨-, hd⟩ | ⟨hs, hd⟩⟩⟩ <;> rw [hd] at h
  · cases h
  · cases h
  · cases h
  · split at h
    · rename_i ho
      cases h
      exact operationOf_wellFormed hf hs ho
    · cases h

end Sys2Proof

namespace Sys2Proof.Machine

/-! ## Well-formed operations answer a next state (60_exceptions.md R149) -/

/-- An operation whose operands are inside their spaces answers a next state, in every state (R149). -/
theorem exec_answers {i : Instr} {s : State} (h : i.WellFormed s.cfg.maxChannels) : ∃ t, exec i s = .next t := by
  cases i with
  | capen l | capr l | capf l | rdclr l => exact ⟨_, onLine_legal _ (of_decide_eq_true h)⟩
  | clrall | tbadv _ | pwmset _ _ | pwmper _ | stset _ | ledstart | ledtick | ledblank => exact ⟨_, rfl⟩

/-! ## What becomes of an issued word (R55, R66) -/

/-- The word of an agent that is not busy is performed at once, the agent noted as issuer. -/
theorem performEvent_op_idle {a : Agent} {w : Word} {s : State} (h : ¬ busy s a) :
    performEvent (.op a w) s = performWord w { s with issuer := a } := if_neg h

/-- If such a word spells an operation, that operation is executed. -/
theorem performEvent_op_decoded {a : Agent} {w : Word} {i : Instr} {s : State} (hb : ¬ busy s a)
    (hd : decode s.cfg.maxChannels w = .instr i) :
    performEvent (.op a w) s = exec i { s with issuer := a } :=
  (performEvent_op_idle hb).trans (performWord_instr hd)

/-- The word of a busy agent waits, first in line, for a micro-step of that agent (R88, R114). -/
theorem performEvent_op_busy {a : Agent} {w : Word} {s : State} (h : busy s a) :
    performEvent (.op a w) s = .next (microStep (s.hand (.op a w)) a) := if_pos h

/-- An event handed over first is the one that happens. -/
theorem step_of_inbox {s : State} {e : Event} {rest : List Event} (h : s.inbox = e :: rest) :
    step s = performEvent e { s with inbox := rest } := by
  rw [step_eq, takeEvent_cons h]

/-! ## The parameters (R10) -/

@[simp] theorem clrMicroAt_cfg (s : State) (k : Nat) : (s.clrMicroAt k).cfg = s.cfg := by
  cases h : s.clrPending[k]? with
  | none => rw [clrMicroAt_none h]
  | some p => rw [clrMicroAt_some h, setRecord_cfg]

@[simp] theorem descMicroAt_cfg (s : State) (k : Nat) : (s.descMicroAt k).cfg = s.cfg := by
  cases h : s.descPending[k]? with
  | none => rw [descMicroAt_none h]
  | some p => rw [descMicroAt_some h]

@[simp] theorem microStep_cfg (s : State) (a : Agent) : (microStep s a).cfg = s.cfg := by
  rcases microStep_cases s a with ⟨-, h⟩ | ⟨-, -, h⟩ | ⟨-, h⟩ <;> rw [h]
  · simp [State.clrMicro]
  · simp [State.descMicro]

/-- The reset brings back the unit there was, not another one (R167). -/
@[simp] theorem externalReset_cfg (s : State) : s.externalReset.cfg = s.cfg := rfl

@[simp] theorem takeEvent_cfg (s : State) : (takeEvent s).2.cfg = s.cfg := by
  obtain ⟨_, _, h⟩ := takeEvent_rest s
  rw [h]

/-- No event changes the parameters (R10). -/
theorem performEvent_cfg {e : Event} {s t : State} (h : performEvent e s = .next t) : t.cfg = s.cfg := by
  rcases performEvent_next h with ⟨_, _, _, -, -, -, hx⟩ | ⟨_, _, -, -, rfl⟩ | ⟨_, -, rfl⟩ | ⟨-, rfl⟩
  · exact (exec_keeps hx).cfg
  · rw [microStep_cfg, hand_cfg]
  · exact microStep_cfg ..
  · exact externalReset_cfg s

/-! ## The statements -/

/-- Settles O50: an operation keeps the parameters, and so do a micro-step, the reset and the taking of an event. -/
theorem parametersNeverChange : Obligations.ParametersNeverChange := by
  intro s t h
  rw [step_eq] at h
  exact (performEvent_cfg h).trans (takeEvent_cfg s)

/-- Settles O54: a busy agent's word waits, and any other agent's is decoded to a well-formed operation, which answers. -/
theorem environmentIsNeverRefused : Obligations.EnvironmentIsNeverRefused := by
  intro s e h
  cases e with
  | op a w =>
    obtain ⟨i, hd, -⟩ := h
    by_cases hb : busy s a
    · exact ⟨_, performEvent_op_busy hb⟩
    · rw [performEvent_op_decoded hb hd]
      exact exec_answers (decode_wellFormed hd)
  | micro a => exact ⟨_, rfl⟩
  | reset => exact ⟨_, rfl⟩

/-- Settles O8: whether the agent is busy does not depend on the inbox, so its word is performed at once. -/
theorem stepRunsDecodedOperation : Obligations.StepRunsDecodedOperation := by
  intro s a w rest i hin hb hd
  rw [step_of_inbox hin]
  exact performEvent_op_decoded hb hd

/-- Settles O9: the word is placed first in the inbox for an agent that is not busy, and that is O8's case. -/
theorem placedWordRunsNext : Obligations.PlacedWordRunsNext := by
  intro s w i hd
  have hw : tableWord 64 w = BitVec.ofNat 64 w := BitVec.eq_of_toNat_eq (by simp [tableWord])
  have hb : ¬ busy (s.withFetchWord 64 w) (freeAgent s) := freeAgent_not_busy s
  exact stepRunsDecodedOperation _ _ (tableWord 64 w) s.inbox i rfl hb (hw ▸ hd)

end Sys2Proof.Machine

/-! PROOFS. The statements of 10_state.md: which operation writes which element (R40), what the first step of a split
operation and each micro-step of it write (R43), and that every step keeps the invariant of the unit (R19, R28, R32,
R43). -/

namespace Sys2Proof.Machine

variable {s t : State} {i : Instr}

/-! ## What an operation has done -/

/-- `Did i s t`: operation `i` took the unit from `s` to `t`, with one constructor per case of each operation's rule and
the rule's guard as its premise. -/
inductive Did (s : State) : Instr → State → Prop
  | enabled (l : Nat) : Did s (.capen l) (s.setRecord l { s.record l with en := true })
  | rose {l : Nat} (he : (s.record l).en = true) : Did s (.capr l) (s.setRecord l { s.record l with rise := s.tb })
  | riseIgnored {l : Nat} (he : (s.record l).en = false) : Did s (.capr l) s
  | fell {l : Nat} (ha : Accepts s l) :
      Did s (.capf l) (s.setRecord l { s.record l with width := s.tb - (s.record l).rise })
  | fallIgnored {l : Nat} (ha : ¬ Accepts s l) : Did s (.capf l) s
  | readCleared (l : Nat) :
      Did s (.rdclr l) ((s.setRecord l { s.record l with width := 0 }).emit (.rdclrResp l (s.record l).width))
  | cleared (hm : s.cfg.clearAllMode = .atomic) : Did s .clrall s.clearTable
  | clearBegun (hm : s.cfg.clearAllMode = .perField) :
      Did s .clrall { s with clrPending := allPairs s.cfg.maxChannels, clrBy := s.issuer }
  | advanced (d : U32) : Did s (.tbadv d) { s with tb := s.tb + d }
  | widthSet (c : PwmChannel) (w : S32) :
      Did s (.pwmset c w) (s.setPwm c { w := w, lo := sMin (s.pwm c).lo w, hi := sMax (s.pwm c).hi w })
  | periodEnded (c : PwmChannel) :
      Did s (.pwmper c) (((s.setPwm c { w := (s.pwm c).w, lo := (s.pwm c).w, hi := (s.pwm c).w }).emit
        (.pwmPulse c (highTime (s.pwm c) s.cfg.pwmPeriodUs s.draws))).countDraw)
  | sameStatus : Did s (.stset s.status) s
  | described {st : Status} (hne : st ≠ s.status) (hm : s.cfg.ledDescMode = .atomic) :
      Did s (.stset st) { s with status := st, desc := ledTable st }
  | describeBegun {st : Status} (hne : st ≠ s.status) (hm : s.cfg.ledDescMode = .perField) :
      Did s (.stset st) { s with status := st, descPending := descFields (ledTable st), descBy := s.issuer }
  | started : Did s .ledstart { s with ledRun := true }
  | ticked (hr : s.ledRun = true) :
      Did s .ledtick ({ s with phase := s.phase + 1 }.writeLed (slotColour s.cfg.ledBitOrder s.desc s.phase))
  | tickIgnored (hr : s.ledRun = false) : Did s .ledtick s
  | blanked : Did s .ledblank (s.writeLed ⟨0, 0, 0⟩)

/-- An operation that answers a next state has done what its rule says. -/
theorem exec_did (h : exec i s = .next t) : Did s i t := by
  cases i with
  | capen l =>
    obtain ⟨-, rfl⟩ := onLine_next h
    exact .enabled l
  | capr l =>
    obtain ⟨-, rfl⟩ := onLine_next h
    split
    · exact .rose ‹_›
    · exact .riseIgnored (Bool.eq_false_iff.mpr ‹_›)
  | capf l =>
    obtain ⟨-, rfl⟩ := onLine_next h
    split
    · exact .fell ‹_›
    · exact .fallIgnored ‹_›
  | rdclr l =>
    obtain ⟨-, rfl⟩ := onLine_next h
    exact .readCleared l
  | clrall =>
    cases hm : s.cfg.clearAllMode with
    | atomic => cases (exec_clrall_atomic hm).symm.trans h; exact .cleared hm
    | perField => cases (exec_clrall_perField hm).symm.trans h; exact .clearBegun hm
  | tbadv d => cases h; exact .advanced d
  | pwmset c w => cases h; exact .widthSet c w
  | pwmper c => cases h; exact .periodEnded c
  | stset st =>
    by_cases hs : st = s.status
    · subst hs
      cases (exec_stset_same s).symm.trans h
      exact .sameStatus
    · cases hm : s.cfg.ledDescMode with
      | atomic => cases (exec_stset_atomic hs hm).symm.trans h; exact .described hs hm
      | perField => cases (exec_stset_perField hs hm).symm.trans h; exact .describeBegun hs hm
  | ledstart => cases h; exact .started
  | ledtick =>
    cases hr : s.ledRun with
    | true => cases (exec_ledtick_running hr).symm.trans h; exact .ticked hr
    | false => cases (exec_ledtick_stopped hr).symm.trans h; exact .tickIgnored hr
  | ledblank => cases h; exact .blanked

/-! ## Which operation writes which element (10_state.md R40) -/

theorem exec_writes_tb (h : exec i s = .next t) (hw : t.tb ≠ s.tb) : ∃ d, i = .tbadv d := by
  cases exec_did h with
  | advanced d => exact ⟨d, rfl⟩
  | _ => simp at hw

theorem exec_writes_phase (h : exec i s = .next t) (hw : t.phase ≠ s.phase) : i = .ledtick := by
  cases exec_did h with
  | ticked => rfl
  | _ => simp at hw

theorem exec_writes_ledRun (h : exec i s = .next t) (hw : t.ledRun ≠ s.ledRun) : i = .ledstart := by
  cases exec_did h with
  | started => rfl
  | _ => simp at hw

theorem exec_writes_ledOut (h : exec i s = .next t) (hw : t.ledOut ≠ s.ledOut) : i = .ledtick ∨ i = .ledblank := by
  cases exec_did h with
  | ticked => exact .inl rfl
  | blanked => exact .inr rfl
  | _ => simp at hw

/-- All that one operation can do to STATUS, DESC and DESC_PENDING (R112, R114). -/
theorem exec_descriptor (h : exec i s = .next t) :
    (t.status = s.status ∧ t.desc = s.desc ∧ t.descPending = s.descPending) ∨
      ∃ st, i = .stset st ∧ t.status = st ∧
        ((s.cfg.ledDescMode = .atomic ∧ t.desc = ledTable st ∧ t.descPending = s.descPending) ∨
          (s.cfg.ledDescMode = .perField ∧ t.desc = s.desc ∧ t.descPending = descFields (ledTable st))) := by
  cases exec_did h with
  | described _ hm => exact .inr ⟨_, rfl, rfl, .inl ⟨hm, rfl, rfl⟩⟩
  | describeBegun _ hm => exact .inr ⟨_, rfl, rfl, .inr ⟨hm, rfl, rfl⟩⟩
  | _ => simp

/-- All that one operation can do to CLR_PENDING (R88). -/
theorem exec_clrPending (h : exec i s = .next t) :
    t.clrPending = s.clrPending ∨
      (s.cfg.clearAllMode = .perField ∧ t.clrPending = allPairs s.cfg.maxChannels) := by
  cases exec_did h with
  | clearBegun hm => exact .inr ⟨hm, rfl⟩
  | _ => simp

/-- Only a STSET writes STATUS or DESC. -/
theorem exec_writes_status_or_desc (h : exec i s = .next t) (hw : t.status ≠ s.status ∨ t.desc ≠ s.desc) :
    ∃ st, i = .stset st := by
  rcases exec_descriptor h with ⟨hst, hd, -⟩ | ⟨st, rfl, -⟩
  · exact absurd hw (by simp [hst, hd])
  · exact ⟨st, rfl⟩

theorem exec_writes_en {l : Nat} (h : exec i s = .next t) (hw : (t.record l).en ≠ (s.record l).en) :
    i = .capen l := by
  rcases exec_record h l with hr | ⟨-, ⟨rfl, -⟩ | ⟨-, hr⟩ | ⟨-, -, hr⟩ | ⟨-, hr⟩ | ⟨-, hr⟩⟩
  · simp [hr] at hw
  · rfl
  · simp [hr] at hw
  · simp [hr] at hw
  · simp [hr] at hw
  · simp [hr, clearRecord] at hw

theorem exec_writes_rise {l : Nat} (h : exec i s = .next t) (hw : (t.record l).rise ≠ (s.record l).rise) :
    i = .capr l ∨ i = .clrall := by
  rcases exec_record h l with hr | ⟨-, ⟨-, hr⟩ | ⟨rfl, -⟩ | ⟨-, -, hr⟩ | ⟨-, hr⟩ | ⟨rfl, -⟩⟩
  · simp [hr] at hw
  · simp [hr] at hw
  · exact .inl rfl
  · simp [hr] at hw
  · simp [hr] at hw
  · exact .inr rfl

theorem exec_writes_width {l : Nat} (h : exec i s = .next t) (hw : (t.record l).width ≠ (s.record l).width) :
    i = .capf l ∨ i = .rdclr l ∨ i = .clrall := by
  rcases exec_record h l with hr | ⟨-, ⟨-, hr⟩ | ⟨-, hr⟩ | ⟨rfl, -⟩ | ⟨rfl, -⟩ | ⟨rfl, -⟩⟩
  · simp [hr] at hw
  · simp [hr] at hw
  · simp [hr] at hw
  · exact .inl rfl
  · exact .inr (.inl rfl)
  · exact .inr (.inr rfl)

/-- Only an accepted CAPF makes a width anything but what it was or 0 (R83, R86, R87). -/
theorem exec_width_cases (h : exec i s = .next t) (l : Nat) :
    (t.record l).width = (s.record l).width ∨ (t.record l).width = 0 ∨ (i = .capf l ∧ Accepts s l) := by
  rcases exec_record h l with hr | ⟨-, ⟨-, hr⟩ | ⟨-, hr⟩ | ⟨hi, ha, -⟩ | ⟨-, hr⟩ | ⟨-, hr⟩⟩
  · exact .inl (by rw [hr])
  · exact .inl (by rw [hr])
  · exact .inl (by rw [hr])
  · exact .inr (.inr ⟨hi, ha⟩)
  · exact .inr (.inl (by rw [hr]))
  · exact .inr (.inl (by rw [hr, clearRecord]))

/-- Only a PWMSET of the channel writes its width register. -/
theorem exec_writes_pwmW {c : PwmChannel} (h : exec i s = .next t) (hw : (t.pwm c).w ≠ (s.pwm c).w) :
    ∃ w, i = .pwmset c w := by
  rcases exec_pwm h c with hp | ⟨w, rfl, -⟩ | ⟨-, hp⟩
  · simp [hp] at hw
  · exact ⟨w, rfl⟩
  · simp [hp] at hw

/-- Only a PWMSET or a PWMPER of the channel writes its registers. -/
theorem exec_writes_pwm {c : PwmChannel} (h : exec i s = .next t) (hw : t.pwm c ≠ s.pwm c) :
    (∃ w, i = .pwmset c w) ∨ i = .pwmper c := by
  rcases exec_pwm h c with hp | ⟨w, rfl, -⟩ | ⟨rfl, -⟩
  · exact absurd hp hw
  · exact .inl ⟨w, rfl⟩
  · exact .inr rfl

/-! ## Micro-steps of the split operations (10_state.md R43, R88, R114) -/

/-- A micro-step of CLRALL with pairs pending clears the field of one of them and takes it off (R88). -/
theorem clrMicro_eq (h : s.clrPending ≠ []) :
    ∃ k l f, s.clrPending[k]? = some (l, f) ∧
      s.clrMicro = ({ s with clrPending := s.clrPending.eraseIdx k }.setRecord l
        (clearField f (s.record l))).countDraw := by
  have hk := List.getElem?_eq_getElem (drawBetween_index s.draws h)
  exact ⟨_, _, _, hk, by rw [State.clrMicro, clrMicroAt_some hk]⟩

/-- A micro-step of STSET with fields pending writes one of them and takes it off (R114). -/
theorem descMicro_eq (h : s.descPending ≠ []) :
    ∃ k f v, s.descPending[k]? = some (f, v) ∧
      s.descMicro =
        { s with desc := setDescField s.desc f v, descPending := s.descPending.eraseIdx k }.countDraw := by
  have hk := List.getElem?_eq_getElem (drawBetween_index s.draws h)
  exact ⟨_, _, _, hk, by rw [State.descMicro, descMicroAt_some hk]⟩

/-- `MicroDid s t`: an agent's micro-step took the unit from `s` to `t`. It cleared a pending pair of CLRALL, wrote a
pending field of STSET, or had nothing to do. -/
inductive MicroDid (s : State) : State → Prop
  | clearedPair {k l : Nat} {f : CapField} (hk : s.clrPending[k]? = some (l, f)) :
      MicroDid s ({ s with clrPending := s.clrPending.eraseIdx k }.setRecord l (clearField f (s.record l))).countDraw
  | wroteField {k : Nat} {f : DescField} {v : Byte} (hk : s.descPending[k]? = some (f, v)) :
      MicroDid s { s with desc := setDescField s.desc f v, descPending := s.descPending.eraseIdx k }.countDraw
  | idle : MicroDid s s

theorem microStep_did (s : State) (a : Agent) : MicroDid s (microStep s a) := by
  rcases microStep_cases s a with ⟨⟨hc, -⟩, h⟩ | ⟨-, ⟨hd, -⟩, h⟩ | ⟨-, h⟩ <;> rw [h]
  · obtain ⟨k, l, f, hk, h⟩ := clrMicro_eq hc
    exact h ▸ .clearedPair hk
  · obtain ⟨k, f, v, hk, h⟩ := descMicro_eq hd
    exact h ▸ .wroteField hk
  · exact .idle

namespace MicroDid

/-- No micro-step touches the parameters. -/
theorem cfg_eq (h : MicroDid s t) : t.cfg = s.cfg := by
  cases h with
  | clearedPair | wroteField | idle => rfl

/-- A micro-step keeps the size of the table (R19). -/
theorem size_eq (h : MicroDid s t) : t.caps.length = s.caps.length := by
  cases h with
  | clearedPair => simp
  | wroteField | idle => rfl

/-- No micro-step touches the PWM registers. -/
theorem pwm_eq (h : MicroDid s t) (c : PwmChannel) : t.pwm c = s.pwm c := by
  cases h with
  | clearedPair | wroteField | idle => cases c <;> rfl

/-- A micro-step leaves a width as it is or makes it 0 (R88). -/
theorem width_cases (h : MicroDid s t) (l : Nat) :
    (t.record l).width = (s.record l).width ∨ (t.record l).width = 0 := by
  cases h with
  | @clearedPair k l' f hk =>
    rcases setRecord_cases { s with clrPending := s.clrPending.eraseIdx k } l' l (clearField f (s.record l')) with
      h | ⟨-, rfl, h⟩ <;> rw [record_countDraw, h]
    · exact .inl rfl
    · cases f
      · exact .inl rfl
      · exact .inr rfl
  | wroteField | idle => exact .inl rfl

/-- A micro-step takes members off CLR_PENDING and adds none (R88). -/
theorem clrPending_sublist (h : MicroDid s t) : t.clrPending.Sublist s.clrPending := by
  cases h with
  | clearedPair => exact List.eraseIdx_sublist ..
  | wroteField | idle => exact List.Sublist.refl _

end MicroDid

/-! ## The descriptor field by field (10_state.md R31) -/

/-- Writing one field of a descriptor writes that field only. -/
theorem descField_setDescField (d : Desc) (f f' : DescField) (v : Byte) :
    descField (setDescField d f v) f' = if f' = f then v else descField d f' := by
  cases f <;> cases f' <;> rfl

theorem desc_ext {d e : Desc} (h : ∀ f, descField d f = descField e f) : d = e := by
  cases d
  cases e
  exact (Desc.mk.injEq ..).mpr ⟨h .r, h .g, h .b, h .pat⟩

theorem mem_descFields {d : Desc} {p : DescField × Byte} : p ∈ descFields d ↔ p.2 = descField d p.1 := by
  obtain ⟨f, v⟩ := p
  cases f <;> simp [descFields, descField]

/-- All four fields of a descriptor are listed, none twice. -/
theorem descFields_fst (d : Desc) : (descFields d).map Prod.fst = [.r, .g, .b, .pat] := rfl

/-! ## The parts of the invariant -/

/-- A record never enabled is all zero (R85, R86). -/
def RecordSound (r : CaptureRecord) : Prop := r.en = false → r.rise = 0 ∧ r.width = 0

/-- CLR_PENDING is a set of pairs of the table, empty in `atomic` mode (R18, R43, R88). -/
structure ClearSound (c : Config) (pending : List (Nat × CapField)) : Prop where
  pairs : ∀ p ∈ pending, p.1 < c.maxChannels
  nodup : pending.Nodup
  atomic : c.clearAllMode = .atomic → pending = []

/-- DESC_PENDING is a set of fields with the encoder's values, empty in `atomic` mode, and every other field of DESC is
the encoder's (R18, R32, R43, R114). -/
structure DescSound (c : Config) (st : Status) (d : Desc) (pending : List (DescField × Byte)) : Prop where
  values : ∀ p ∈ pending, p.2 = descField (ledTable st) p.1
  nodup : (pending.map Prod.fst).Nodup
  atomic : c.ledDescMode = .atomic → pending = []
  table : ∀ f, f ∈ pending.map Prod.fst ∨ descField d f = descField (ledTable st) f

/-- The invariant is the conjunction of its parts, the table's records read line by line. -/
theorem inv_iff :
    Inv s ↔ s.cfg.Legal ∧ s.caps.length = s.cfg.maxChannels ∧ (∀ c, EnvelopeHolds (s.pwm c)) ∧
      (∀ l, RecordSound (s.record l)) ∧ ClearSound s.cfg s.clrPending ∧
      DescSound s.cfg s.status s.desc s.descPending := by
  constructor
  · intro h
    refine ⟨h.cfgLegal, h.tableSize, h.envelope, fun l => ?_, ⟨h.clrPairs, h.clrNodup, h.clrAtomic⟩,
      ⟨h.descValues, h.descNodup, h.descAtomic, h.descTable⟩⟩
    by_cases hl : l < s.caps.length
    · exact h.neverEnabled _ (record_mem s hl)
    · rw [record_outside s (by omega)]
      exact fun _ => ⟨rfl, rfl⟩
  · rintro ⟨legal, size, env, recs, clr, desc⟩
    refine ⟨legal, size, env, fun r hr => ?_, clr.pairs, clr.nodup, clr.atomic, desc.values, desc.nodup,
      desc.atomic, desc.table⟩
    obtain ⟨l, hl, rfl⟩ := List.getElem_of_mem hr
    simpa [State.record, List.getD, hl, RecordSound] using recs l

/-- The invariant does not speak of the model's own notes: the issuer, the events, the inbox and the count of draws. -/
theorem Inv.withNotes (h : Inv s) (a : Agent) (es : List OutEvent) (ib : List Event) (n : Nat) :
    Inv { s with issuer := a, events := es, inbox := ib, draws := n } :=
  inv_iff.mpr ((inv_iff (s := s)).mp h)

/-! ## What keeps each part -/

theorem RecordSound.of_enabled {r : CaptureRecord} (he : r.en = true) : RecordSound r :=
  fun hn => nomatch he.symm.trans hn

theorem RecordSound.clearField {r : CaptureRecord} (h : RecordSound r) (f : CapField) :
    RecordSound (clearField f r) := by
  intro he
  obtain ⟨hr, hw⟩ := h ((clearField_en f r).symm.trans he)
  cases f
  · exact ⟨rfl, hw⟩
  · exact ⟨hr, rfl⟩

theorem ClearSound.nil (c : Config) : ClearSound c [] := ⟨by simp, by simp, fun _ => rfl⟩

/-- Every pair of the table is pending when a per_field CLRALL begins (R88). -/
theorem ClearSound.allPairs {c : Config} (hm : c.clearAllMode = .perField) :
    ClearSound c (allPairs c.maxChannels) :=
  ⟨fun _ => mem_allPairs.mp, allPairs_nodup _, by simp [hm]⟩

/-- Taking pairs off CLR_PENDING keeps it sound. -/
theorem ClearSound.sublist {c : Config} {ps qs : List (Nat × CapField)} (h : ClearSound c ps) (hs : qs.Sublist ps) :
    ClearSound c qs :=
  ⟨fun p hp => h.pairs p (hs.subset hp), h.nodup.sublist hs, fun hm => List.sublist_nil.mp (h.atomic hm ▸ hs)⟩

/-- With nothing pending, the descriptor is sound exactly when it is the encoder's (R32). -/
theorem descSound_nil {c : Config} {st : Status} {d : Desc} : DescSound c st d [] ↔ d = ledTable st := by
  constructor
  · intro h
    exact desc_ext fun f => (h.table f).resolve_left (by simp)
  · rintro rfl
    exact ⟨by simp, by simp, fun _ => rfl, fun _ => .inr rfl⟩

/-- All four fields are pending when a per_field STSET begins, so DESC may hold anything (R114). -/
theorem DescSound.descFields {c : Config} (hm : c.ledDescMode = .perField) (st : Status) (d : Desc) :
    DescSound c st d (descFields (ledTable st)) :=
  ⟨fun _ => mem_descFields.mp, by rw [descFields_fst]; decide, by simp [hm],
    fun f => .inl (by rw [descFields_fst]; cases f <;> decide)⟩

/-- Writing a pending field and taking it off keeps the descriptor sound (R114). -/
theorem DescSound.writeField {c : Config} {st : Status} {d : Desc} {ps : List (DescField × Byte)}
    (h : DescSound c st d ps) {k : Nat} {f : DescField} {v : Byte} (hk : ps[k]? = some (f, v)) :
    DescSound c st (setDescField d f v) (ps.eraseIdx k) := by
  have hsub : (ps.eraseIdx k).Sublist ps := List.eraseIdx_sublist ..
  refine ⟨fun p hp => h.values p (hsub.subset hp), h.nodup.sublist (hsub.map _), fun hm => ?_, fun f' => ?_⟩
  · simp [h.atomic hm]
  · rw [descField_setDescField]
    split
    next hf =>
      subst hf
      exact .inr (h.values _ (List.mem_of_getElem? hk))
    next hf =>
      refine (h.table f').imp_left fun hf' => ?_
      obtain ⟨p, hp, rfl⟩ := List.mem_map.mp hf'
      obtain ⟨hlt, hget⟩ := List.getElem?_eq_some_iff.mp hk
      refine List.mem_map_of_mem ((mem_eraseIdx_of_nodup h.nodup.of_map hlt p).mpr ⟨hp, ?_⟩)
      rintro rfl
      exact hf (by rw [hget])

/-- Writing a sound record keeps every record sound. -/
theorem setRecord_recordSound {k : Nat} {r : CaptureRecord} (hs : ∀ l, RecordSound (s.record l)) (hr : RecordSound r)
    (l : Nat) : RecordSound ((s.setRecord k r).record l) := by
  rcases setRecord_cases s k l r with h | ⟨-, -, h⟩ <;> rw [h]
  · exact hs l
  · exact hr

/-! ## Operations keep the invariant -/

theorem exec_envelope (h : exec i s = .next t) (hs : ∀ c, EnvelopeHolds (s.pwm c)) (c : PwmChannel) :
    EnvelopeHolds (t.pwm c) := by
  obtain ⟨hlo, hhi⟩ := hs c
  rcases exec_pwm h c with hp | ⟨w, -, hp⟩ | ⟨-, hp⟩ <;> rw [hp]
  · exact ⟨hlo, hhi⟩
  · constructor
    · rw [sMin_toInt]
      exact min_le_right ..
    · rw [sMax_toInt]
      exact le_max_right ..
  · exact ⟨le_rfl, le_rfl⟩

/-- An edge is written only to an enabled record, and every other write is of zeros (R85, R86, R87). -/
theorem exec_recordSound (h : exec i s = .next t) (hs : ∀ l, RecordSound (s.record l)) (l : Nat) :
    RecordSound (t.record l) := by
  cases exec_did h with
  | enabled k => exact setRecord_recordSound hs (.of_enabled rfl) l
  | rose he =>
    refine setRecord_recordSound hs (.of_enabled ?_) l
    exact he
  | fell ha =>
    refine setRecord_recordSound hs (.of_enabled ?_) l
    exact ha.1
  | readCleared k => exact setRecord_recordSound hs ((hs k).clearField .width) l
  | cleared =>
    rw [record_clearTable]
    exact fun _ => ⟨rfl, rfl⟩
  | widthSet | periodEnded => simpa using hs l
  | _ => exact hs l

theorem exec_clearSound (h : exec i s = .next t) (hs : ClearSound s.cfg s.clrPending) :
    ClearSound s.cfg t.clrPending := by
  rcases exec_clrPending h with hp | ⟨hm, hp⟩ <;> rw [hp]
  · exact hs
  · exact .allPairs hm

theorem exec_descSound (h : exec i s = .next t) (hs : DescSound s.cfg s.status s.desc s.descPending) :
    DescSound s.cfg t.status t.desc t.descPending := by
  rcases exec_descriptor h with ⟨hst, hd, hp⟩ | ⟨st, -, hst, ⟨hm, hd, hp⟩ | ⟨hm, hd, hp⟩⟩ <;> rw [hst, hd, hp]
  · exact hs
  · rw [hs.atomic hm, descSound_nil]
  · exact .descFields hm st s.desc

theorem exec_inv (h : exec i s = .next t) (hs : Inv s) : Inv t := by
  obtain ⟨legal, size, env, recs, clr, desc⟩ := inv_iff.mp hs
  have keeps := exec_keeps h
  rw [inv_iff, keeps.cfg, keeps.size]
  exact ⟨legal, size, exec_envelope h env, exec_recordSound h recs, exec_clearSound h clr, exec_descSound h desc⟩

/-! ## Micro-steps keep the invariant -/

theorem MicroDid.recordSound (h : MicroDid s t) (hs : ∀ l, RecordSound (s.record l)) (l : Nat) :
    RecordSound (t.record l) := by
  cases h with
  | clearedPair =>
    exact setRecord_recordSound (s := { s with clrPending := _ }) hs ((hs _).clearField _) l
  | wroteField | idle => exact hs l

theorem MicroDid.descSound {c : Config} (h : MicroDid s t) (hs : DescSound c s.status s.desc s.descPending) :
    DescSound c t.status t.desc t.descPending := by
  cases h with
  | wroteField hk => exact hs.writeField hk
  | clearedPair | idle => exact hs

theorem MicroDid.inv (h : MicroDid s t) (hs : Inv s) : Inv t := by
  obtain ⟨legal, size, env, recs, clr, desc⟩ := inv_iff.mp hs
  rw [inv_iff, h.cfg_eq, h.size_eq]
  exact ⟨legal, size, fun c => h.pwm_eq c ▸ env c, h.recordSound recs, clr.sublist h.clrPending_sublist,
    h.descSound desc⟩

/-! ## The reset (70_reset_and_hazards.md R167, R168) -/

@[simp] theorem resetAt_record (c : Config) (n l : Nat) : (State.resetAt c n).record l = resetRecord := by
  by_cases hl : l < c.maxChannels <;> simp [State.record, State.resetAt, List.getD, hl]

theorem resetAt_envelope (c : Config) (n : Nat) (ch : PwmChannel) : EnvelopeHolds ((State.resetAt c n).pwm ch) := by
  cases ch <;> exact ⟨le_rfl, le_rfl⟩

theorem resetAt_inv {c : Config} (hc : c.Legal) (n : Nat) : Inv (State.resetAt c n) :=
  inv_iff.mpr ⟨hc, List.length_replicate, resetAt_envelope c n,
    fun l => by rw [resetAt_record]; exact fun _ => ⟨rfl, rfl⟩, ClearSound.nil c, descSound_nil.mpr rfl⟩

/-! ## Every event keeps it -/

/-- All that one event can do: an operation that ran with its agent noted, a micro-step beside what is handed over, or
the reset. -/
theorem performEvent_cases {e : Event} (h : performEvent e s = .next t) :
    (∃ a w i, e = .op a w ∧ decode s.cfg.maxChannels w = .instr i ∧ exec i { s with issuer := a } = .next t) ∨
      (∃ ib, MicroDid { s with inbox := ib } t) ∨ t = s.externalReset := by
  rcases performEvent_next h with ⟨a, w, i, he, -, hd, hx⟩ | ⟨a, w, -, -, rfl⟩ | ⟨a, -, rfl⟩ | ⟨-, ht⟩
  · exact .inl ⟨a, w, i, he, hd, hx⟩
  · exact .inr (.inl ⟨_, microStep_did (s.hand (.op a w)) a⟩)
  · exact .inr (.inl ⟨s.inbox, microStep_did s a⟩)
  · exact .inr (.inr ht)

theorem performEvent_envelope {e : Event} (h : performEvent e s = .next t) (hs : ∀ c, EnvelopeHolds (s.pwm c))
    (c : PwmChannel) : EnvelopeHolds (t.pwm c) := by
  rcases performEvent_cases h with ⟨a, _, _, -, -, hx⟩ | ⟨ib, hm⟩ | rfl
  · exact exec_envelope (s := { s with issuer := a }) hx hs c
  · rw [hm.pwm_eq]
    exact hs c
  · exact resetAt_envelope s.cfg s.draws c

/-- A width that an event makes other than 0 is the one an accepted CAPF measures (R86). -/
theorem performEvent_width {e : Event} {l : Nat} (h : performEvent e s = .next t) (h0 : (s.record l).width = 0)
    (h1 : (t.record l).width ≠ 0) :
    Accepts s l ∧ ∃ a w, e = .op a w ∧ decode s.cfg.maxChannels w = .instr (.capf l) := by
  rcases performEvent_cases h with ⟨a, w, i, he, hd, hx⟩ | ⟨ib, hm⟩ | rfl
  · rcases exec_width_cases hx l with hw | hw | ⟨rfl, hacc⟩
    · exact absurd (hw.trans h0) h1
    · exact absurd hw h1
    · exact ⟨hacc, a, w, he, hd⟩
  · rcases hm.width_cases l with hw | hw
    · exact absurd (hw.trans h0) h1
    · exact absurd hw h1
  · exact absurd (congrArg CaptureRecord.width (resetAt_record s.cfg s.draws l)) h1

theorem performEvent_inv {e : Event} (h : performEvent e s = .next t) (hs : Inv s) : Inv t := by
  rcases performEvent_cases h with ⟨a, _, _, -, -, hx⟩ | ⟨ib, hm⟩ | rfl
  · exact exec_inv hx (hs.withNotes a s.events s.inbox s.draws)
  · exact hm.inv (hs.withNotes s.issuer s.events ib s.draws)
  · exact (resetAt_inv hs.cfgLegal s.draws).withNotes .host s.events s.inbox _

/-- A step performs an event in the state it finds, but for what is handed over and the count of draws. -/
theorem step_performs (h : step s = .next t) :
    ∃ ib n, performEvent (takeEvent s).1 { s with inbox := ib, draws := n } = .next t := by
  obtain ⟨ib, n, hrest⟩ := takeEvent_rest s
  exact ⟨ib, n, hrest ▸ h⟩

/-! ## The statements -/

/-- Settles O52: taking an event changes the model's notes only, and the event keeps every part of the invariant. -/
theorem stepKeepsInvariant : Obligations.StepKeepsInvariant := by
  intro s t hs h
  obtain ⟨ib, n, h⟩ := step_performs h
  exact performEvent_inv h (hs.withNotes s.issuer s.events ib n)

/-- Settles O19: CLR_PENDING becomes the list of all pairs. -/
theorem perFieldClearBegins : Obligations.PerFieldClearBegins := by
  intro s hm
  exact ⟨_, exec_clrall_perField hm, fun _ _ => mem_allPairs, allPairs_nodup _, rfl, rfl⟩

/-- Settles O20: the pair is the one at the position drawn, and in a set it stands nowhere else. -/
theorem clearMicroStepClearsOnePair : Obligations.ClearMicroStepClearsOnePair := by
  intro s hs hne
  obtain ⟨k, l, f, hk, heq⟩ := clrMicro_eq hne
  have hmem := List.mem_of_getElem? hk
  have hl : l < s.caps.length := hs.line_in_table (hs.clrPairs _ hmem)
  obtain ⟨hlt, hget⟩ := List.getElem?_eq_some_iff.mp hk
  rw [heq]
  refine ⟨l, f, hmem, ?_, fun j hj => record_setRecord_ne _ _ hj, fun p => ?_, rfl⟩
  · rw [record_countDraw, record_setRecord_self { s with clrPending := s.clrPending.eraseIdx k } _ hl]
    cases f <;> rfl
  · rw [← hget]
    exact mem_eraseIdx_of_nodup hs.clrNodup hlt p

/-- Settles O27: an event other than an accepted CAPF leaves each width as it is or makes it 0. -/
theorem widthComesFromAcceptedFallingEdge : Obligations.WidthComesFromAcceptedFallingEdge := by
  intro s t l _ h h0 h1
  obtain ⟨ib, n, h⟩ := step_performs h
  exact performEvent_width (s := { s with inbox := ib, draws := n }) h h0 h1

/-- Settles O33: only PWMSET, PWMPER and the reset write a channel's registers, and each writes an envelope that takes in
the width. -/
theorem envelopeTakesInWidth : Obligations.EnvelopeTakesInWidth := by
  intro s t hs h
  obtain ⟨ib, n, h⟩ := step_performs h
  exact performEvent_envelope (s := { s with inbox := ib, draws := n }) h hs

/-- Settles O49, one row of R40's table after the other. -/
theorem fieldsWrittenOnlyByTheirOperations : Obligations.FieldsWrittenOnlyByTheirOperations := by
  intro i s t h
  exact ⟨exec_writes_tb h, fun _ => exec_writes_en h, fun _ => exec_writes_rise h, fun _ => exec_writes_width h,
    fun _ => exec_writes_pwmW h, fun _ hw => exec_writes_pwm h (ne_of_apply_ne PwmRegs.lo hw),
    fun _ hw => exec_writes_pwm h (ne_of_apply_ne PwmRegs.hi hw), fun hw => exec_writes_status_or_desc h (.inl hw),
    fun hw => exec_writes_status_or_desc h (.inr hw), exec_writes_phase h, exec_writes_ledRun h, exec_writes_ledOut h⟩

/-- Settles O57: the invariant holds after the step, and with nothing pending every field of DESC is the encoder's. -/
theorem settledDescriptorIsTheEncoders : Obligations.SettledDescriptorIsTheEncoders := by
  intro s t hs h hp
  obtain ⟨-, -, -, -, -, desc⟩ := inv_iff.mp (stepKeepsInvariant s t hs h)
  exact descSound_nil.mp (hp ▸ desc)

/-- Settles O37: DESC_PENDING becomes the list of the new descriptor's four fields. -/
theorem perFieldTransitionBegins : Obligations.PerFieldTransitionBegins := by
  intro s st hm hne
  exact ⟨_, exec_stset_perField hne hm, rfl, fun _ _ => mem_descFields, (DescSound.descFields hm st s.desc).nodup, rfl,
    rfl⟩

/-- Settles O51: the unit's own parameters are legal. -/
theorem resetMeetsInvariant : Obligations.ResetMeetsInvariant :=
  ⟨resetAt_inv unitConfig_legal 0, fun _ n hc => resetAt_inv hc n⟩

end Sys2Proof.Machine

/-! PROOFS. The statement of 20_memory.md: an index outside its space spells no operation, and no operation reaches a
record outside the table (R46). -/

namespace Sys2Proof

/-- A format that leaves SEL unused puts no range on it (R64). -/
theorem selLegal_of_selUnused {f : Format} (h : selUnused f = true) (mc : Nat) (sel : BitVec 8) :
    selLegal mc f sel = true := by
  cases f with
  | n | d => rfl
  | l | c | cd | s => cases h

/-- A word with an opcode of the map and its reserved bits 0 is refused for its selector when SEL is out of range (R66). -/
theorem decode_badSelector {mc : Nat} {w : Word} {f : Format} (hf : formatOf (opOf w) = some f) (hrz : rzOf w = 0)
    (hdata : dataUnused f = true → dataOf w = 0) (hsel : selLegal mc f (selOf w) = false) :
    decode mc w = .illegal .badSelector := by
  rcases decode_cases mc w with ⟨hf', -⟩ | ⟨f', hf', ⟨hbits, -⟩ | ⟨-, ⟨-, hd⟩ | ⟨hsel', -⟩⟩⟩ <;>
    cases hf.symm.trans hf'
  · rcases hbits with hrz' | ⟨hu, -⟩ | ⟨hu, hdata'⟩
    · exact absurd hrz hrz'
    · exact nomatch hsel.symm.trans (selLegal_of_selUnused hu mc (selOf w))
    · exact absurd (hdata hu) hdata'
  · exact hd
  · exact nomatch hsel.symm.trans hsel'

/-- CAPEN, CAPR, CAPF and RDCLR are the operations of format L (R62, R70). -/
theorem formatOf_line {op : BitVec 4} (h : op = 0x1 ∨ op = 0x2 ∨ op = 0x3 ∨ op = 0x4) : formatOf op = some .l := by
  rcases h with rfl | rfl | rfl | rfl <;> rfl

end Sys2Proof

namespace Sys2Proof.Machine

/-- No operation changes what is read outside the table (R46). -/
theorem exec_record_outside {i : Instr} {s t : State} (h : exec i s = .next t) {l : Nat} (hl : s.caps.length ≤ l) :
    t.record l = s.record l := by
  rw [record_outside s hl, record_outside t ((exec_keeps h).size.trans_le hl)]

/-- Settles O5: of the decoder's checks only the selector's fails, and an operation keeps the table's size and all that is
read outside it. -/
theorem indexOutsideItsSpaceRefused : Obligations.IndexOutsideItsSpaceRefused := by
  constructor
  · intro w s hrz hindex
    apply performWord_illegal
    rcases hindex with ⟨hdata, hop, hsel⟩ | ⟨hop, hsel⟩ | ⟨hdata, hop, hsel⟩ | ⟨hdata, hop, hsel⟩
    · exact decode_badSelector (f := .l) (formatOf_line hop) hrz (fun _ => hdata) (decide_eq_false hsel.not_gt)
    · exact decode_badSelector (f := .cd) (hop ▸ rfl) hrz nofun (decide_eq_false hsel.not_ge)
    · exact decode_badSelector (f := .c) (hop ▸ rfl) hrz (fun _ => hdata) (decide_eq_false hsel.not_ge)
    · exact decode_badSelector (f := .s) (hop ▸ rfl) hrz (fun _ => hdata) (decide_eq_false hsel.not_ge)
  · intro i s t hsize h
    exact ⟨(exec_keeps h).size, fun l hl => exec_record_outside h (hsize.trans_le hl)⟩

end Sys2Proof.Machine

/-! PROOFS. The statements of 30_encoding.md: which words the decoder refuses and why (R66 to R68), that it and the encoder
are inverse (R69, R71), the rows of the opcode table (R74), and that the boot sequence and TELEMREAD are operations of the
unit (R77). -/

namespace Sys2Proof

/-! ## What the decoder answers (R66) -/

/-- Every reserved bit of a word of format `f` is 0 (R68). -/
structure ReservedBitsZero (f : Format) (w : Word) : Prop where
  rz : rzOf w = 0
  sel : selUnused f = true → selOf w = 0
  data : dataUnused f = true → dataOf w = 0

theorem decode_reservedOpcode {w : Word} (h : formatOf (opOf w) = none) (mc : Nat) :
    decode mc w = .illegal .reservedOpcode := by
  rcases decode_cases mc w with ⟨-, hd⟩ | ⟨f, hf, -⟩
  · exact hd
  · exact nomatch h.symm.trans hf

theorem decode_reservedBits {mc : Nat} {w : Word} {f : Format} (hf : formatOf (opOf w) = some f)
    (hbits : ¬ ReservedBitsZero f w) : decode mc w = .illegal .reservedBits := by
  rcases decode_cases mc w with ⟨hf', -⟩ | ⟨f', hf', ⟨-, hd⟩ | ⟨⟨hrz, hsel, hdata⟩, -⟩⟩ <;> cases hf.symm.trans hf'
  · exact hd
  · exact absurd ⟨hrz, by simpa using hsel, by simpa using hdata⟩ hbits

/-- A word decodes to an operation exactly when it passes the three checks and its fields spell that operation (R66). -/
theorem decode_instr_iff {mc : Nat} {w : Word} {i : Instr} :
    decode mc w = .instr i ↔ ∃ f, formatOf (opOf w) = some f ∧ ReservedBitsZero f w ∧
      selLegal mc f (selOf w) = true ∧ operationOf (opOf w) (selOf w) (dataOf w) = some i := by
  constructor
  · intro h
    rcases decode_cases mc w with ⟨-, hd⟩ | ⟨f, hf, ⟨-, hd⟩ | ⟨⟨hrz, hsel, hdata⟩, ⟨-, hd⟩ | ⟨hs, hd⟩⟩⟩ <;> rw [hd] at h
    · cases h
    · cases h
    · cases h
    · refine ⟨f, hf, ⟨hrz, by simpa using hsel, by simpa using hdata⟩, hs, ?_⟩
      split at h
      · rename_i ho
        cases h
        exact ho
      · cases h
  · rintro ⟨f, hf, hbits, hs, ho⟩
    rcases decode_cases mc w with ⟨hf', -⟩ | ⟨f', hf', ⟨hone, -⟩ | ⟨-, ⟨hs', -⟩ | ⟨-, hd⟩⟩⟩ <;> cases hf.symm.trans hf'
    · rcases hone with hrz | ⟨hu, hsel⟩ | ⟨hu, hdata⟩
      · exact absurd hbits.rz hrz
      · exact absurd (hbits.sel hu) hsel
      · exact absurd (hbits.data hu) hdata
    · exact nomatch hs.symm.trans hs'
    · rw [hd, ho]

/-! ## The opcodes by format (R67, R70) -/

/-- SEL is unused by CLRALL, TBADV and the three LED operations without an operand (R70). -/
theorem selUnused_iff (op : BitVec 4) : ∀ f ∈ formatOf op,
    selUnused f = true ↔ op = 0x5 ∨ op = 0x6 ∨ op = 0xA ∨ op = 0xB ∨ op = 0xC := by
  revert op
  decide

/-- DATA is unused by all but TBADV and PWMSET (R70). -/
theorem dataUnused_iff (op : BitVec 4) : ∀ f ∈ formatOf op, dataUnused f = true ↔ op ≠ 0x6 ∧ op ≠ 0x7 := by
  revert op
  decide

/-- The opcodes 0x1 to 0xC have a format (R62). -/
theorem formatOf_some {op : BitVec 4} (h1 : 1 ≤ op.toNat) (h12 : op.toNat ≤ 12) : ∃ f, formatOf op = some f :=
  Option.ne_none_iff_exists'.mp fun h => by have := (formatOf_none_iff op).mp h; omega

/-! ## The fields of an operation's word (R62, R64, R65, R70) -/

/-- The format of an operation (R70). -/
def Instr.format : Instr → Format
  | .capen _ | .capr _ | .capf _ | .rdclr _ => .l
  | .clrall | .ledstart | .ledtick | .ledblank => .n
  | .tbadv _ => .d
  | .pwmset _ _ => .cd
  | .pwmper _ => .c
  | .stset _ => .s

@[simp] theorem formatOf_opcode (i : Instr) : formatOf (opcode i) = some i.format := by
  cases i <;> rfl

/-- An operation's word has 0 in every bit that its format reserves (R68). -/
theorem encode_reservedBitsZero (i : Instr) : ReservedBitsZero i.format (encode i) where
  rz := rzOf_encode i
  sel h := by
    cases i with
    | capen _ | capr _ | capf _ | rdclr _ | pwmset _ _ | pwmper _ | stset _ => cases h
    | clrall | tbadv _ | ledstart | ledtick | ledblank => exact selOf_wordOf ..
  data h := by
    cases i with
    | tbadv _ | pwmset _ _ => cases h
    | capen _ | capr _ | capf _ | rdclr _ | clrall | pwmper _ | stset _ | ledstart | ledtick | ledblank =>
      exact dataOf_wordOf ..

/-- A line id of a unit fits SEL (R10, R64). -/
theorem toNat_lineSel {mc l : Nat} (hmc : mc ≤ 256) (hl : decide (l < mc) = true) : (BitVec.ofNat 8 l).toNat = l :=
  (BitVec.toNat_ofNat l 8).trans (Nat.mod_eq_of_lt ((of_decide_eq_true hl).trans_le hmc))

/-- An operation of the unit has a SEL in its format's range (R64). -/
theorem selLegal_encode {mc : Nat} {i : Instr} (hmc : mc ≤ 256) (hi : i.WellFormed mc) :
    selLegal mc i.format (selOf (encode i)) = true := by
  cases i with
  | capen l | capr l | capf l | rdclr l =>
    simp only [encode, selOf_wordOf, Instr.format, selLegal, toNat_lineSel hmc hi]
    exact hi
  | pwmset c _ | pwmper c =>
    simp only [encode, selOf_wordOf]
    cases c <;> rfl
  | stset st =>
    simp only [encode, selOf_wordOf]
    cases st <;> rfl
  | clrall | tbadv _ | ledstart | ledtick | ledblank => rfl

/-- The fields of an operation's word spell that operation (R62). -/
theorem operationOf_encode {mc : Nat} {i : Instr} (hmc : mc ≤ 256) (hi : i.WellFormed mc) :
    operationOf (opcode i) (selOf (encode i)) (dataOf (encode i)) = some i := by
  cases i with
  | capen l | capr l | capf l | rdclr l => simp [encode, opcode, operationOf, toNat_lineSel hmc hi]
  | pwmset _ _ | pwmper _ | stset _ | clrall | tbadv _ | ledstart | ledtick | ledblank =>
    simp [encode, opcode, operationOf]

/-- The operation that a word's fields spell has that opcode, and has each operand in its field (R62, R64, R65). -/
theorem operationOf_fields {op : BitVec 4} {sel : BitVec 8} {data : BitVec 32} {i : Instr}
    (ho : operationOf op sel data = some i) :
    opcode i = op ∧ (selUnused i.format = false → selOf (encode i) = sel) ∧
      (dataUnused i.format = false → dataOf (encode i) = data) := by
  unfold operationOf at ho
  split at ho
  case h_1 hop | h_2 hop | h_3 hop | h_4 hop =>
    cases ho
    exact ⟨(BitVec.eq_of_toNat_eq hop).symm, fun _ => by simp [encode], nofun⟩
  case h_5 hop | h_10 hop | h_11 hop | h_12 hop =>
    cases ho
    exact ⟨(BitVec.eq_of_toNat_eq hop).symm, nofun, nofun⟩
  case h_6 hop =>
    cases ho
    exact ⟨(BitVec.eq_of_toNat_eq hop).symm, nofun, fun _ => dataOf_wordOf ..⟩
  case h_7 hop =>
    obtain ⟨c, hc, rfl⟩ := Option.map_eq_some_iff.mp ho
    exact ⟨(BitVec.eq_of_toNat_eq hop).symm, fun _ => (selOf_wordOf ..).trans (pwmOfSel_some hc).symm,
      fun _ => dataOf_wordOf ..⟩
  case h_8 hop =>
    obtain ⟨c, hc, rfl⟩ := Option.map_eq_some_iff.mp ho
    exact ⟨(BitVec.eq_of_toNat_eq hop).symm, fun _ => (selOf_wordOf ..).trans (pwmOfSel_some hc).symm, nofun⟩
  case h_9 hop =>
    obtain ⟨st, hst, rfl⟩ := Option.map_eq_some_iff.mp ho
    exact ⟨(BitVec.eq_of_toNat_eq hop).symm, fun _ => (selOf_wordOf ..).trans (statusOfSel_some hst).symm, nofun⟩
  case h_13 => cases ho

/-! ## Encoding and decoding are inverse (R71) -/

theorem decode_encode {mc : Nat} {i : Instr} (hmc : mc ≤ 256) (hi : i.WellFormed mc) : decode mc (encode i) = .instr i :=
  decode_instr_iff.mpr ⟨i.format, by simp, encode_reservedBitsZero i, selLegal_encode hmc hi,
    by simpa using operationOf_encode hmc hi⟩

/-- A word is that of the operation it decodes to: they agree in the fields that the format uses, and the others are 0. -/
theorem encode_of_decode {mc : Nat} {w : Word} {i : Instr} (h : decode mc w = .instr i) : encode i = w := by
  obtain ⟨f, hf, hbits, -, ho⟩ := decode_instr_iff.mp h
  obtain ⟨hop, hsel, hdata⟩ := operationOf_fields ho
  have hi := encode_reservedBitsZero i
  obtain rfl : i.format = f := Option.some.inj ((formatOf_opcode i).symm.trans (hop ▸ hf))
  apply word_eq_of_fields
  · exact (opOf_encode i).trans hop
  · exact hi.rz.trans hbits.rz.symm
  · cases hu : selUnused i.format with
    | false => exact hsel hu
    | true => exact (hi.sel hu).trans (hbits.sel hu).symm
  · cases hu : dataUnused i.format with
    | false => exact hdata hu
    | true => exact (hi.data hu).trans (hbits.data hu).symm

/-! ## The words as R71 writes them -/

/-- A word with RZ = 0 as its other three fields, each shifted to its place (R61). -/
theorem wordOf_eq_or (op : BitVec 4) (sel : BitVec 8) (data : BitVec 32) :
    wordOf op 0 sel data = op.setWidth 64 <<< 60 ||| sel.setWidth 64 <<< 32 ||| data.setWidth 64 := by
  have h : (op ++ 0#20 ++ sel ++ data).setWidth 64 = _ :=
    BitVec.setWidth_append_append_append_eq_shiftLeft_setWidth_or
  simpa [wordOf] using h

/-- The word of an L-format operation (R71). -/
theorem wordOf_line (op : BitVec 4) {l : Nat} (hl : l < 256) :
    wordOf op 0 (BitVec.ofNat 8 l) 0 = op.setWidth 64 <<< 60 ||| BitVec.ofNat 64 l <<< 32 := by
  rw [wordOf_eq_or, BitVec.setWidth_ofNat_of_le_of_lt (by decide) hl]
  simp

/-- An s32 modulo 2^32 is its 32 bits read as unsigned (R12, R71). -/
theorem ofInt_toInt_emod (w : S32) : BitVec.ofInt 64 (w.toInt % 2 ^ 32) = w.setWidth 64 := by
  have h : w.toInt % 2 ^ 32 = w.toNat := by
    rw [BitVec.toInt_eq_toNat_bmod]
    exact Int.bmod_emod.trans (Int.emod_eq_of_lt (by omega) (by omega))
  rw [h, BitVec.ofInt_natCast, BitVec.ofNat_toNat]

theorem encode_tbadv (d : U32) : encode (.tbadv d) = 0x6000000000000000 ||| BitVec.ofNat 64 d.toNat := by
  rw [BitVec.ofNat_toNat]
  exact wordOf_eq_or 0x6 0 d

theorem encode_pwmset (c : PwmChannel) (w : S32) :
    encode (.pwmset c w) =
      0x7000000000000000 ||| (selOfPwm c).setWidth 64 <<< 32 ||| BitVec.ofInt 64 (w.toInt % 2 ^ 32) := by
  rw [ofInt_toInt_emod]
  exact wordOf_eq_or 0x7 (selOfPwm c) w

theorem encode_stset (st : Status) :
    encode (.stset st) = 0x9000000000000000 ||| BitVec.ofNat 64 (statusCode st) <<< 32 :=
  wordOf_line 0x9 ((statusCode_le st).trans_lt (by decide))

/-- Settles O1: the words field by field, and the two directions of the inverse. -/
theorem encodeAndDecodeAreInverse : Obligations.EncodeAndDecodeAreInverse :=
  ⟨⟨fun _ hl => ⟨wordOf_line 0x1 hl, wordOf_line 0x2 hl, wordOf_line 0x3 hl, wordOf_line 0x4 hl⟩, by decide,
    encode_tbadv, encode_pwmset .throttle, encode_pwmset .steering, by decide, by decide, encode_stset, by decide,
    by decide, by decide⟩, fun _ _ => decode_encode, fun _ _ _ => encode_of_decode⟩

/-! ## The rows of the opcode table (R74) -/

/-- The bits of SEL that a format's mask keeps (R74). -/
def Format.selMask : Format → BitVec 8
  | .n | .d => 0xFF
  | .l => 0
  | .c | .cd => 0xFE
  | .s => 0xF8

/-- The bits of DATA that a format's mask keeps (R74). -/
def Format.dataMask : Format → BitVec 32
  | .n | .l | .c | .s => 0xFFFFFFFF
  | .cd | .d => 0

/-- A row matches the opcode, RZ = 0 and the bits of SEL and DATA that the format keeps at 0 (R74). -/
theorem tableRow_eq (i : Instr) :
    tableRow i = (wordOf (opcode i) 0 0 0, wordOf 0xF 0xFFFFF i.format.selMask i.format.dataMask) := by
  cases i <;> simp only [tableRow, opcode, Instr.format, Format.selMask, Format.dataMask] <;> decide

/-- A word that selects a row, field by field. -/
theorem fields_of_tableRow {w : Word} {i : Instr} (h : w &&& (tableRow i).2 = (tableRow i).1) :
    opOf w = opcode i ∧ rzOf w = 0 ∧ selOf w &&& i.format.selMask = 0 ∧ dataOf w &&& i.format.dataMask = 0 := by
  rw [← wordOf_fields w, tableRow_eq, wordOf_and] at h
  refine ⟨?_, ?_, ?_, ?_⟩
  · exact BitVec.and_allOnes.symm.trans (by simpa using congrArg opOf h)
  · exact BitVec.and_allOnes.symm.trans (by simpa using congrArg rzOf h)
  · simpa using congrArg selOf h
  · simpa using congrArg dataOf h

theorem selMask_of_selUnused {f : Format} (h : selUnused f = true) : f.selMask = BitVec.allOnes 8 := by
  cases f with
  | n | d => rfl
  | l | c | cd | s => cases h

theorem dataMask_of_dataUnused {f : Format} (h : dataUnused f = true) : f.dataMask = BitVec.allOnes 32 := by
  cases f with
  | n | l | c | s => rfl
  | cd | d => cases h

/-- A mask keeps every bit that the format reserves (R68, R74). -/
theorem reservedBitsZero_of_tableRow {w : Word} {i : Instr} (h : w &&& (tableRow i).2 = (tableRow i).1) :
    ReservedBitsZero i.format w := by
  obtain ⟨-, hrz, hsel, hdata⟩ := fields_of_tableRow h
  refine ⟨hrz, fun hu => ?_, fun hu => ?_⟩
  · rwa [selMask_of_selUnused hu, BitVec.and_allOnes] at hsel
  · rwa [dataMask_of_dataUnused hu, BitVec.and_allOnes] at hdata

/-- What a mask cannot express of R64's ranges: a line id at or above MAX_CHANNELS, and status 7 (R74). -/
theorem selLegal_false_of_selMask {mc : Nat} {f : Format} {sel : BitVec 8} (hm : sel &&& f.selMask = 0)
    (hs : selLegal mc f sel = false) : f = .l ∧ mc ≤ sel.toNat ∨ f = .s ∧ sel = 7 := by
  have hstatus : ∀ s : BitVec 8, s &&& 0xF8 = 0 → ¬ s.toNat ≤ 6 → s = 7 := by decide
  have hpwm : ∀ s : BitVec 8, s &&& 0xFE = 0 → s.toNat ≤ 1 := by decide
  cases f with
  | l => exact .inl ⟨rfl, not_lt.mp (of_decide_eq_false hs)⟩
  | s => exact .inr ⟨rfl, hstatus sel hm (of_decide_eq_false hs)⟩
  | c | cd => exact absurd (hpwm sel hm) (of_decide_eq_false hs)
  | n | d => cases hs

/-- With SEL in its format's range the decoder has an operation for the word (R62, R64). -/
theorem operationOf_of_selLegal {mc : Nat} {i : Instr} {sel : BitVec 8} (hs : selLegal mc i.format sel = true)
    (data : BitVec 32) : ∃ j, operationOf (opcode i) sel data = some j := by
  have hpwm : ∀ s : BitVec 8, s.toNat ≤ 1 → (pwmOfSel s).isSome = true := by decide
  have hstatus : ∀ s : BitVec 8, s.toNat ≤ 6 → (statusOfSel s).isSome = true := by decide
  apply Option.isSome_iff_exists.mp
  cases i with
  | pwmset _ _ | pwmper _ => exact Option.isSome_map.trans (hpwm sel (of_decide_eq_true hs))
  | stset _ => exact Option.isSome_map.trans (hstatus sel (of_decide_eq_true hs))
  | capen _ | capr _ | capf _ | rdclr _ | clrall | tbadv _ | ledstart | ledtick | ledblank => rfl

theorem encode_selects_tableRow : ∀ i : Instr, encode i &&& (tableRow i).2 = (tableRow i).1
  | .capen l => (Laws.TableRow.capen l).1
  | .capr l => (Laws.TableRow.capr l).1
  | .capf l => (Laws.TableRow.capf l).1
  | .rdclr l => (Laws.TableRow.rdclr l).1
  | .clrall => Laws.TableRow.clrall.1
  | .tbadv d => (Laws.TableRow.tbadv d).1
  | .pwmset c w => (Laws.TableRow.pwmset c w).1
  | .pwmper c => (Laws.TableRow.pwmper c).1
  | .stset st => (Laws.TableRow.stset st).1
  | .ledstart => Laws.TableRow.ledstart.1
  | .ledtick => Laws.TableRow.ledtick.1
  | .ledblank => Laws.TableRow.ledblank.1

/-- The operations of format L are those of the opcodes 0x1 to 0x4 (R62, R70). -/
theorem opcode_of_format_line {i : Instr} (h : i.format = .l) : 1 ≤ (opcode i).toNat ∧ (opcode i).toNat ≤ 4 := by
  cases i with
  | capen _ | capr _ | capf _ | rdclr _ => simp [opcode]
  | clrall | tbadv _ | pwmset _ _ | pwmper _ | stset _ | ledstart | ledtick | ledblank => cases h

/-- The operation of format S is that of the opcode 0x9 (R62, R70). -/
theorem opcode_of_format_status {i : Instr} (h : i.format = .s) : opcode i = 0x9 := by
  cases i with
  | stset _ => rfl
  | capen _ | capr _ | capf _ | rdclr _ | clrall | tbadv _ | pwmset _ _ | pwmper _ | ledstart | ledtick | ledblank =>
    cases h

/-- Settles O6: a row fixes all that the decoder checks but the part of SEL's range that a mask cannot express. -/
theorem tableRowsSelectOperations : Obligations.TableRowsSelectOperations := by
  refine fun mc w => ⟨fun i h => encode_of_decode h ▸ encode_selects_tableRow i, fun i h => ?_⟩
  obtain ⟨hop, hrz, hsel, -⟩ := fields_of_tableRow h
  have hbits := reservedBitsZero_of_tableRow h
  have hf : formatOf (opOf w) = some i.format := hop ▸ formatOf_opcode i
  cases hs : selLegal mc i.format (selOf w) with
  | true =>
    obtain ⟨j, hj⟩ := operationOf_of_selLegal hs (dataOf w)
    rw [← hop] at hj
    exact .inl ⟨j, decode_instr_iff.mpr ⟨_, hf, hbits, hs, hj⟩, (operationOf_fields hj).1.trans hop⟩
  | false =>
    refine .inr ⟨decode_badSelector hf hrz hbits.data hs, ?_⟩
    rcases selLegal_false_of_selMask hsel hs with ⟨hl, hle⟩ | ⟨hst, h7⟩
    · exact .inl ⟨(opcode_of_format_line hl).1, (opcode_of_format_line hl).2, hle⟩
    · exact .inr ⟨opcode_of_format_status hst, h7⟩

/-! ## The worked encodings (R73) -/

/-- Settles O7: the words are fixed, so the decoder is run on each. -/
theorem workedEncodingsDecode : Obligations.WorkedEncodingsDecode := by
  unfold Obligations.WorkedEncodingsDecode
  decide

end Sys2Proof

namespace Sys2Proof.Machine

/-! ## What becomes of a refused word (R69, R150) -/

/-- Settles O2: a word that decodes is that of the operation, and the word of an operation decodes to it and to no other. -/
theorem wordIsOneOperationOrRefused : Obligations.WordIsOneOperationOrRefused := by
  intro mc w hmc
  cases h : decode mc w with
  | instr i =>
    refine .inl ⟨i, decode_wellFormed h, rfl, encode_of_decode h, ?_⟩
    rintro j hj rfl
    exact Decoded.instr.inj ((decode_encode hmc hj).symm.trans h)
  | illegal r =>
    refine .inr ⟨r, rfl, fun s hs => performWord_illegal (hs ▸ h), ?_⟩
    rintro j hj rfl
    exact nomatch (decode_encode hmc hj).symm.trans h

/-- Settles O4: the word's format reserves the bit that is 1. -/
theorem reservedBitsRefused : Obligations.ReservedBitsRefused := by
  intro w s h1 h12 hone
  obtain ⟨f, hf⟩ := formatOf_some h1 h12
  refine performWord_illegal (decode_reservedBits hf fun hbits => ?_)
  rcases hone with hrz | ⟨hsel, hop⟩ | ⟨hdata, hop⟩
  · exact hrz hbits.rz
  · exact hsel (hbits.sel ((selUnused_iff _ f hf).mpr hop))
  · exact hdata (hbits.data ((dataUnused_iff _ f hf).mpr hop))

/-- Settles O3: the four opcodes have no format, and the zero word has the first of them. -/
theorem reservedOpcodesRefused : Obligations.ReservedOpcodesRefused := by
  constructor
  · intro w hop s
    have hnone : formatOf (opOf w) = none := by
      rcases hop with h | h | h | h <;> rw [h] <;> rfl
    exact performWord_illegal (decode_reservedOpcode hnone _)
  · exact fun s => performWord_illegal (decode_reservedOpcode (by decide) _)

/-- The word of an agent that is not busy is refused at once if it spells no operation (R150). -/
theorem performEvent_op_illegal {a : Agent} {w : Word} {r : IllegalReason} {s : State} (hb : ¬ busy s a)
    (hd : decode s.cfg.maxChannels w = .illegal r) : performEvent (.op a w) s = .refused (.illegal r w) :=
  (performEvent_op_idle hb).trans (performWord_illegal hd)

/-- A run from a state whose step is refused is refused (R150). -/
theorem run_of_step_refused {s : State} {r : Refusal} (h : step s = .refused r) (k : Nat) :
    Host.Core.run core (k + 1) s = .refused r := by
  have hstep : core.step s = .refused r := h
  simp only [Host.Core.run, hstep]

/-- Settles O10: the run's first step takes the word and refuses it. -/
theorem illegalWordEndsTheRun : Obligations.IllegalWordEndsTheRun := by
  intro s a w rest r hin hb hd
  apply run_of_step_refused
  rw [step_of_inbox hin]
  exact performEvent_op_illegal hb hd

/-! ## Boot and TELEMREAD (R77, R170) -/

/-- LINE_OF of the five monitored channels is the parameter's list of line ids (R10, R19). -/
theorem map_lineOf_monitored {c : Config} (h : c.lines.length = 5) : monitored.map (lineOf c) = c.lines := by
  simp only [monitored, List.map, lineOf, channelIndex]
  match c.lines, h with
  | [_, _, _, _, _], _ => rfl

theorem lineOf_lt {c : Config} (hc : c.Legal) (ch : InputChannel) : lineOf c ch < c.maxChannels := by
  obtain ⟨-, -, hlen, -, hlt, -⟩ := hc
  refine hlt _ (map_lineOf_monitored hlen ▸ List.mem_map_of_mem ?_)
  cases ch <;> decide

/-- Settles O60: each line id is one of LINE_OF's five different ones, and no other operand has a range to leave. -/
theorem bootSequenceIsWellFormed : Obligations.BootSequenceIsWellFormed := by
  intro c hc
  have hl (ch : InputChannel) : decide (lineOf c ch < c.maxChannels) = true := decide_eq_true (lineOf_lt hc ch)
  obtain ⟨-, -, hlen, hnodup, -⟩ := hc
  refine ⟨?_, rfl, rfl, map_lineOf_monitored hlen ▸ hnodup, ?_⟩
  · intro i hi
    simp only [bootSequence, capenMon, pwmNeutral, List.mem_append, List.mem_map, List.mem_cons, List.not_mem_nil,
      or_false] at hi
    rcases hi with (⟨ch, -, rfl⟩ | rfl | rfl) | rfl | rfl | rfl
    · exact hl ch
    all_goals rfl
  · intro i hi
    obtain ⟨ch, -, rfl⟩ := List.mem_map.mp hi
    exact hl ch

end Sys2Proof.Machine

/-! PROOFS. The statements of 40_capture.md: what each edge-capture operation writes and what it leaves alone (R79 to R87,
R94, R95), what a falling edge measures (R83, R84, R89 to R92), and how the micro-steps of a split CLRALL come to the atomic
one's end (R88). -/

namespace Sys2Proof.Machine

variable {s t u : State} {l : Nat} {i : Instr} {is : List Instr}

/-! ## Sequences of operations -/

/-- Operations keep the invariant. -/
theorem runOps_inv (h : runOps is s = .next t) (hs : Inv s) : Inv t :=
  runOps_invariant h (fun _ _ _ _ hu hx => exec_inv hx hu) hs

/-- A line of the unit stays one. -/
theorem Keeps.lineLegal (h : Keeps s t) (hl : lineLegal s l) : lineLegal t l := hl.trans_eq (congrArg _ h.cfg.symm)

/-- While no CAPF on the line is accepted, a width that is 0 stays 0 (R90). -/
theorem runOps_width_zero (h : runOps is s = .next t) (hn : ¬ acceptsCapf l is s) (h0 : (s.record l).width = 0) :
    (t.record l).width = 0 := by
  induction is generalizing s with
  | nil =>
    cases h
    exact h0
  | cons i is ih =>
    obtain ⟨u, hx, hrun⟩ := runOps_cons_inv h
    rw [acceptsCapf, hx] at hn
    obtain ⟨hi, his⟩ := not_or.mp hn
    refine ih hrun his ?_
    rcases exec_width_cases hx l with hw | hw | hacc
    · exact hw.trans h0
    · exact hw
    · exact absurd hacc hi

/-- Without a CAPR on the line, an operation leaves RISE as it is or makes it 0 (R82, R87). -/
theorem exec_rise_cases (h : exec i s = .next t) (hi : i ≠ .capr l) :
    (t.record l).rise = (s.record l).rise ∨ (i = .clrall ∧ (t.record l).rise = 0) := by
  rcases exec_record h l with hr | ⟨-, ⟨-, hr⟩ | ⟨hi', -⟩ | ⟨-, -, hr⟩ | ⟨-, hr⟩ | ⟨hi', hr⟩⟩
  · exact .inl (by rw [hr])
  · exact .inl (by rw [hr])
  · exact absurd hi' hi
  · exact .inl (by rw [hr])
  · exact .inl (by rw [hr])
  · exact .inr ⟨hi', by rw [hr, clearRecord]⟩

/-- Without a CAPR on the line, a RISE that is 0 stays 0 (R91). -/
theorem runOps_rise_zero (h : runOps is s = .next t) (hr : .capr l ∉ is) (h0 : (s.record l).rise = 0) :
    (t.record l).rise = 0 := by
  refine runOps_invariant (P := fun u => (u.record l).rise = 0) h (fun i hi u v hu hx => ?_) h0
  rcases exec_rise_cases hx (ne_of_mem_of_not_mem hi hr) with hv | ⟨-, hv⟩
  · exact hv.trans hu
  · exact hv

/-- Without a CAPR on the line and a CLRALL, RISE stays as it is (R92). -/
theorem runOps_rise (h : runOps is s = .next t) (hr : .capr l ∉ is) (hc : .clrall ∉ is) :
    (t.record l).rise = (s.record l).rise := by
  refine runOps_invariant (P := fun u => (u.record l).rise = (s.record l).rise) h (fun i hi u v hu hx => ?_) rfl
  rcases exec_rise_cases hx (ne_of_mem_of_not_mem hi hr) with hv | ⟨rfl, -⟩
  · exact hv.trans hu
  · exact absurd hi hc

/-- A sequence of TBADV advances TB by the sum and does nothing else (R81). -/
theorem runOps_tbadv (s : State) (ds : List U32) :
    runOps (ds.map .tbadv) s = .next { s with tb := s.tb + BitVec.ofNat 32 (ds.map BitVec.toNat).sum } := by
  induction ds generalizing s with
  | nil => simp [runOps]
  | cons d ds ih =>
    rw [List.map_cons, runOps_cons (exec_tbadv d s), ih, List.map_cons, List.sum_cons, BitVec.ofNat_add,
      BitVec.ofNat_toNat, BitVec.setWidth_eq, BitVec.add_assoc]

/-! ## Operations on one line (R79, R95) -/

namespace OnlyRecord

theorem refl (l : Nat) (s : State) : OnlyRecord l s s := ⟨rfl, rfl, fun _ _ => rfl⟩

theorem setRecord (s : State) (l : Nat) (r : CaptureRecord) : OnlyRecord l s (s.setRecord l r) :=
  ⟨rfl, setRecord_size s l r, fun _ hk => record_setRecord_ne s r hk⟩

end OnlyRecord

/-- The record of a line of the table is the entry at its position (R19). -/
theorem record_eq_getElem (s : State) (h : l < s.caps.length) : s.record l = s.caps[l] := by
  simp [State.record, List.getD, h]

/-- Writing a record of the unit and reading it back. -/
theorem Inv.record_setRecord (hs : Inv s) (hl : lineLegal s l) (r : CaptureRecord) : (s.setRecord l r).record l = r :=
  record_setRecord_self s r (hs.line_in_table hl)

/-- A difference that the wrap guard lets through is exact (R83). -/
theorem width_toNat {now rise : U32} (h : guardPasses now rise) : (now - rise).toNat = now.toNat - rise.toNat :=
  BitVec.toNat_sub_of_le h

/-- An accepted CAPF writes WIDTH of its line to the time since RISE, and nothing else (R83). -/
theorem exec_capf_measures (hs : Inv s) (hl : lineLegal s l) (ha : Accepts s l) :
    ∃ t, exec (.capf l) s = .next t ∧ OnlyRecord l s t ∧
      t.record l = { s.record l with width := s.tb - (s.record l).rise } :=
  ⟨_, exec_capf_accepted hl ha.1 ha.2, .setRecord .., hs.record_setRecord hl _⟩

/-- On an enabled line whose RISE is 0, a CAPF is accepted and measures TB itself (R91). -/
theorem exec_capf_measures_from_zero (hs : Inv s) (hl : lineLegal s l) (he : (s.record l).en = true)
    (h0 : (s.record l).rise = 0) : ∃ t, exec (.capf l) s = .next t ∧ (t.record l).width = s.tb := by
  obtain ⟨t, hx, -, hr⟩ := exec_capf_measures hs hl ⟨he, by simp [h0]⟩
  exact ⟨t, hx, by simp [hr, h0]⟩

/-- A CAPF that the wrap guard suppresses changes nothing (R84). -/
theorem exec_capf_suppressed (hl : lineLegal s l) (h : s.tb.toNat < (s.record l).rise.toNat) :
    exec (.capf l) s = .next s :=
  exec_capf_dropped hl fun ha => h.not_ge ha.2

/-- The record that an operation on a line leaves there, from the record it finds and the time (R80, R82, R83, R86). -/
def lineRecord (now : U32) (r : CaptureRecord) : Instr → CaptureRecord
  | .capen _ => { r with en := true }
  | .capr _ => if r.en then { r with rise := now } else r
  | .capf _ => if r.en ∧ guardPasses now r.rise then { r with width := now - r.rise } else r
  | .rdclr _ => { r with width := 0 }
  | _ => r

/-- The events that an operation on line l emits, from the record it finds (R79, R86). -/
def lineEvents (l : Nat) (r : CaptureRecord) : Instr → List OutEvent
  | .rdclr _ => [.rdclrResp l r.width]
  | _ => []

/-- `i` is an operation on line l (R79). -/
abbrev ActsOn (l : Nat) (i : Instr) : Prop := i = .capen l ∨ i = .capr l ∨ i = .capf l ∨ i = .rdclr l

/-- An operation on a line reads the line's record and TB only, and writes that record and emits only (R95). -/
theorem exec_of_actsOn (hi : ActsOn l i) (hl : lineLegal s l) :
    exec i s = .next { s.setRecord l (lineRecord s.tb (s.record l) i) with
      events := s.events ++ lineEvents l (s.record l) i } := by
  rcases hi with rfl | rfl | rfl | rfl
  · simp [exec_capen hl, lineRecord, lineEvents, State.setRecord]
  · cases he : (s.record l).en with
    | true => simp [exec_capr_enabled hl he, lineRecord, lineEvents, he, State.setRecord]
    | false => simp [exec_capr_disabled hl he, lineRecord, lineEvents, he]
  · by_cases ha : Accepts s l
    · simp [exec_capf_accepted hl ha.1 ha.2, lineRecord, lineEvents, ha, State.setRecord]
    · simp [exec_capf_dropped hl ha, lineRecord, lineEvents, if_neg ha]
  · exact exec_rdclr hl

/-- Only the edges read TB (R95). -/
theorem lineRecord_congr {now now' : U32} (r : CaptureRecord) (hi : ActsOn l i)
    (h : i = .capr l ∨ i = .capf l → now = now') : lineRecord now r i = lineRecord now' r i := by
  rcases hi with rfl | rfl | rfl | rfl
  · rfl
  · rw [h (.inl rfl)]
  · rw [h (.inr rfl)]
  · rfl

/-- An operation is on at most one line. -/
theorem ActsOn.unique {k : Nat} (h : ActsOn l i) (h' : ActsOn k i) : l = k := by
  rcases h with rfl | rfl | rfl | rfl <;> simpa [ActsOn] using h'

/-- Apart from CLRALL, only an operation on a line changes its record (R95). -/
theorem exec_writes_record (h : exec i s = .next t) (hi : i ≠ .clrall) (hr : t.record l ≠ s.record l) : ActsOn l i := by
  rcases exec_record h l with hr' | ⟨-, ⟨hi', -⟩ | ⟨hi', -⟩ | ⟨hi', -⟩ | ⟨hi', -⟩ | ⟨hi', -⟩⟩
  · exact absurd hr' hr
  · exact .inl hi'
  · exact .inr (.inl hi')
  · exact .inr (.inr (.inl hi'))
  · exact .inr (.inr (.inr hi'))
  · exact absurd hi' hi

/-- No operation disables a line (R80). -/
theorem exec_keeps_enabled (h : exec i s = .next t) (he : (s.record l).en = true) : (t.record l).en = true := by
  rcases exec_record h l with hr | ⟨-, ⟨-, hr⟩ | ⟨-, hr⟩ | ⟨-, -, hr⟩ | ⟨-, hr⟩ | ⟨-, hr⟩⟩ <;>
    simp [hr, he, clearRecord]

/-- While no CAPF on the line is accepted, a RDCLR after a width of 0 responds with 0 (R90). -/
theorem rdclr_responds_zero (hl : lineLegal s l) (h0 : (s.record l).width = 0) (h : runOps is s = .next t)
    (hn : ¬ acceptsCapf l is s) : ∃ u, exec (.rdclr l) t = .next u ∧ u.events = t.events ++ [.rdclrResp l 0] :=
  ⟨_, exec_rdclr ((runOps_keeps h).lineLegal hl), by simp [runOps_width_zero h hn h0]⟩

/-! ## Split operations (R43, R88, R114) -/

/-- No micro-step takes what has been handed over. -/
theorem MicroDid.inbox_eq (h : MicroDid s t) : t.inbox = s.inbox := by
  cases h with
  | clearedPair | wroteField | idle => rfl

/-- A micro-step of CLRALL takes one pair off CLR_PENDING and leaves the agent and DESC_PENDING (R88). -/
theorem clrMicro_pending (h : s.clrPending ≠ []) :
    s.clrMicro.clrPending.length + 1 = s.clrPending.length ∧ s.clrMicro.clrBy = s.clrBy ∧
      s.clrMicro.descPending = s.descPending := by
  obtain ⟨k, l, f, hk, heq⟩ := clrMicro_eq h
  rw [heq]
  exact ⟨List.length_eraseIdx_add_one (List.getElem?_eq_some_iff.mp hk).1, rfl, rfl⟩

/-- A micro-step of STSET takes one field off DESC_PENDING and leaves CLR_PENDING (R114). -/
theorem descMicro_pending (h : s.descPending ≠ []) :
    s.descMicro.descPending.length + 1 = s.descPending.length ∧ s.descMicro.clrPending = s.clrPending := by
  obtain ⟨k, f, v, hk, heq⟩ := descMicro_eq h
  rw [heq]
  exact ⟨List.length_eraseIdx_add_one (List.getElem?_eq_some_iff.mp hk).1, rfl⟩

/-- The micro-step of a busy agent leaves one pending element fewer (R88, R114). -/
theorem microStep_pending {a : Agent} (h : busy s a) :
    (microStep s a).clrPending.length + (microStep s a).descPending.length + 1 =
      s.clrPending.length + s.descPending.length := by
  rcases microStep_cases s a with ⟨⟨hc, -⟩, hm⟩ | ⟨-, ⟨hd, -⟩, hm⟩ | ⟨hb, -⟩
  · obtain ⟨hlen, -, hdesc⟩ := clrMicro_pending hc
    rw [hm, hdesc, ← hlen, Nat.add_right_comm]
  · obtain ⟨hlen, hclr⟩ := descMicro_pending hd
    rw [hm, hclr, ← hlen, Nat.add_assoc]
  · exact absurd h hb

/-- Record `l` with those of its fields 0 that are pending. -/
def clearPending (ps : List (Nat × CapField)) (l : Nat) (r : CaptureRecord) : CaptureRecord where
  en := r.en
  rise := if (l, .rise) ∈ ps then 0 else r.rise
  width := if (l, .width) ∈ ps then 0 else r.width

/-- Where a CLRALL in progress ends if only its own micro-steps follow: the pending fields 0, none pending any more, and a
draw made for each. -/
def State.finishClear (s : State) : State :=
  { s with
    caps := s.caps.mapIdx (clearPending s.clrPending)
    clrPending := []
    draws := s.draws + s.clrPending.length }

/-- With nothing pending every record stays as it is. -/
theorem clearPending_nil (l : Nat) : clearPending [] l = id := by
  funext r
  simp [clearPending]

/-- With nothing pending a CLRALL is at its end. -/
theorem finishClear_settled (h : s.clrPending = []) : s.finishClear = s := by
  have hid : s.caps.mapIdx (clearPending []) = s.caps := List.ext_getElem? fun j => by simp [clearPending_nil]
  simp only [State.finishClear, h, hid, List.length_nil, Nat.add_zero]
  rw [← h]

/-- Clearing a pending pair's field first and the rest after it clears what is pending (R88). -/
theorem clearPending_eraseIdx {ps : List (Nat × CapField)} {k : Nat} {f : CapField} (hk : ps[k]? = some (l, f)) (j : Nat)
    (r : CaptureRecord) :
    clearPending (ps.eraseIdx k) j (if l = j then clearField f r else r) = clearPending ps j r := by
  obtain ⟨hlt, hget⟩ := List.getElem?_eq_some_iff.mp hk
  have hmem (p : Nat × CapField) : p ∈ ps ↔ p = (l, f) ∨ p ∈ ps.eraseIdx k := by
    rw [← hget, ← List.mem_cons]
    exact (List.getElem_cons_eraseIdx_perm hlt).mem_iff.symm
  by_cases hj : l = j
  · subst hj
    cases f <;> simp [clearPending, clearField, hmem]
  · simp [clearPending, hmem, hj, Ne.symm hj]

/-- A micro-step of CLRALL does not change where it ends, whichever pair is drawn. -/
theorem finishClear_clrMicro (h : s.clrPending ≠ []) : s.clrMicro.finishClear = s.finishClear := by
  obtain ⟨k, l, f, hk, heq⟩ := clrMicro_eq h
  have hlen := List.length_eraseIdx_add_one (List.getElem?_eq_some_iff.mp hk).1
  have hcaps : (s.caps.set l (clearField f (s.record l))).mapIdx (clearPending (s.clrPending.eraseIdx k)) =
      s.caps.mapIdx (clearPending s.clrPending) := by
    refine List.ext_getElem (by simp) fun j _ _ => ?_
    rw [List.getElem_mapIdx, List.getElem_mapIdx, List.getElem_set, ← clearPending_eraseIdx hk]
    congr 1
    split
    · subst l
      rw [record_eq_getElem]
    · rfl
  simp [State.finishClear, heq, hcaps, ← hlen, Nat.add_right_comm, Nat.add_assoc]

/-- The micro-steps of a CLRALL in progress, with nothing between them, bring it to its end (R88). -/
theorem iterate_microStep_clearing (n : Nat) (hn : s.clrPending.length = n) :
    (fun u => microStep u s.clrBy)^[n] s = s.finishClear := by
  induction n generalizing s with
  | zero => exact (finishClear_settled (List.length_eq_zero_iff.mp hn)).symm
  | succ n ih =>
    have hne : s.clrPending ≠ [] := List.ne_nil_of_length_eq_add_one hn
    obtain ⟨hlen, hby, -⟩ := clrMicro_pending hne
    rw [Function.iterate_succ_apply, microStep_clearing ⟨hne, rfl⟩, ← hby,
      ih (Nat.succ_injective (hlen.trans hn)), finishClear_clrMicro hne]

/-- With every pair of the table pending, the end is the cleared table (R87, R88). -/
theorem mapIdx_clearPending_allPairs {n : Nat} {rs : List CaptureRecord} (h : rs.length = n) :
    rs.mapIdx (clearPending (allPairs n)) = rs.map clearRecord := by
  refine List.ext_getElem (by simp) fun j hj _ => ?_
  have hj : j < n := by simpa [h] using hj
  simp [clearPending, clearRecord, mem_allPairs, hj]

/-! ## The statements -/

/-- Settles O21: no micro-step changes where the CLRALL ends, and after as many as there are pairs it is there. -/
theorem uninterruptedClearEqualsAtomic : Obligations.UninterruptedClearEqualsAtomic := by
  intro s b hs hm hb
  cases (exec_clrall_perField hm).symm.trans hb
  have hend := iterate_microStep_clearing
    (s := { s with clrPending := allPairs s.cfg.maxChannels, clrBy := s.issuer }) _ (allPairs_length _)
  rw [hend]
  simp only [State.finishClear, mapIdx_clearPending_allPairs hs.tableSize, allPairs_length]
  rfl

/-- Settles O11: the busy agent's word is handed back, so the micro-step is taken in the state as it was. -/
theorem busyAgentWaits : Obligations.BusyAgentWaits := by
  refine ⟨fun s a w rest hin hb => ?_, fun s a rest hin => step_of_inbox hin, fun s a =>
    ⟨microStep_clearing, microStep_describing, microStep_idle⟩⟩
  have hback : { s with inbox := rest }.hand (.op a w) = s := by
    rw [State.hand, ← hin]
  have hstep : step s = .next (microStep s a) := by
    rw [step_of_inbox hin, performEvent_op_busy (s := { s with inbox := rest }) hb, hback]
  exact ⟨_, hstep, rfl, (microStep_did s a).inbox_eq, microStep_pending hb⟩

/-- Settles O12: of all operations only CAPEN writes a CAP_EN, and it writes 1. -/
theorem capenEnablesLine : Obligations.CapenEnablesLine := by
  refine ⟨fun s l hs hl => ⟨rfl, _, exec_capen hl, hs.record_setRecord hl _, .setRecord .., fun he => ?_⟩,
    fun _ _ _ _ => exec_keeps_enabled⟩
  have hsame : { s.record l with en := true } = s.record l := by rw [← he]
  rw [hsame, setRecord_record]

/-- Settles O13: BitVec addition is addition modulo 2^32. -/
theorem timebaseAdvances : Obligations.TimebaseAdvances := by
  refine ⟨fun _ => rfl, fun s d => ⟨_, exec_tbadv d s, BitVec.toNat_add .., rfl, ?_⟩,
    fun s ds => ⟨_, runOps_tbadv s ds, ?_, rfl⟩⟩
  · rintro rfl
    simp
  · simp

/-- Settles O14: CAP_EN decides between storing TB and doing nothing. -/
theorem risingEdgeStoresTimebase : Obligations.RisingEdgeStoresTimebase := by
  intro s l hs hl
  refine ⟨rfl, ?_⟩
  cases he : (s.record l).en with
  | true => exact ⟨_, exec_capr_enabled hl he, .setRecord .., fun _ => hs.record_setRecord hl _, nofun⟩
  | false => exact ⟨s, exec_capr_disabled hl he, .refl l s, nofun, fun _ => rfl⟩

/-- Settles O15: the CAPF is accepted, or the wrap guard or CAP_EN stops it. -/
theorem fallingEdgeMeasuresWidth : Obligations.FallingEdgeMeasuresWidth := by
  intro s l hs hl
  refine ⟨rfl, ?_⟩
  by_cases ha : Accepts s l
  · obtain ⟨t, hx, honly, hr⟩ := exec_capf_measures hs hl ha
    obtain ⟨he, hg⟩ := ha
    refine ⟨t, hx, honly, fun _ _ => ⟨hr, ?_⟩, fun _ heq => ?_, fun _ h0 => ?_, fun hlt => ?_, fun hn => ?_⟩
    · rw [hr]
      exact width_toNat hg
    · simp [hr, heq]
    · simp [hr, h0]
    · exact absurd hg hlt.not_ge
    · exact nomatch he.symm.trans hn
  · refine ⟨s, exec_capf_dropped hl ha, .refl l s, fun he hg => absurd ⟨he, hg⟩ ha,
      fun he heq => absurd ⟨he, ?_⟩ ha, fun he h0 => absurd ⟨he, ?_⟩ ha, fun _ => rfl, fun _ => rfl⟩
    · rw [heq]
    · simp [h0]

/-- Settles O16: an edge writes its line's record or nothing, and never an event. -/
theorem edgesCompleteSilently : Obligations.EdgesCompleteSilently := by
  intro s l i hl hi
  rcases hi with rfl | rfl
  · cases he : (s.record l).en with
    | true => exact ⟨_, exec_capr_enabled hl he, rfl, nofun⟩
    | false => exact ⟨s, exec_capr_disabled hl he, rfl, fun _ => rfl⟩
  · by_cases ha : Accepts s l
    · exact ⟨_, exec_capf_accepted hl ha.1 ha.2, rfl, fun hn => nomatch ha.1.symm.trans hn⟩
    · exact ⟨s, exec_capf_dropped hl ha, rfl, fun _ => rfl⟩

/-- Settles O17: a line not enabled has WIDTH 0 by the invariant. -/
theorem readAndClearReturnsWidth : Obligations.ReadAndClearReturnsWidth := by
  intro s l hs hl
  obtain ⟨-, -, -, sound, -, -⟩ := inv_iff.mp hs
  exact ⟨rfl, _, exec_rdclr hl, rfl, hs.record_setRecord hl _, fun _ hk => record_setRecord_ne s _ hk, rfl,
    fun he => (sound l he).2⟩

/-- Settles O18: CLRALL clears every record at once and leaves TB and CAP_EN, so the next CAPF finds RISE 0. -/
theorem clearAllAtomic : Obligations.ClearAllAtomic := by
  refine ⟨rfl, fun s hs hm => ?_⟩
  have hx := exec_clrall_atomic hm
  refine ⟨_, hx, record_clearTable s, clearTable_size s, rfl, fun l hl he => ?_⟩
  have hr : s.clearTable.record l = clearRecord (s.record l) := record_clearTable s l
  exact exec_capf_measures_from_zero (exec_inv hx hs) hl (hr ▸ he) (hr ▸ rfl)

/-- Settles O22: the wrap guard decides whether the pulse is dropped, and a difference it lets through is T modulo 2^32. -/
theorem pulseReportedExactlyOrDropped : Obligations.PulseReportedExactlyOrDropped := by
  intro s l T hs hl he htb
  have hrise : (s.record l).rise.toNat < 2 ^ 32 := (s.record l).rise.isLt
  by_cases hg : guardPasses s.tb (s.record l).rise
  · obtain ⟨t, hx, -, hr⟩ := exec_capf_measures hs hl ⟨he, hg⟩
    have hw : (t.record l).width.toNat = s.tb.toNat - (s.record l).rise.toNat := by
      rw [hr]
      exact width_toNat hg
    refine ⟨t, hx, fun _ _ => ?_, fun _ _ => ?_, fun _ _ => ?_, fun _ _ => ?_, fun _ => hg⟩ <;> omega
  · refine ⟨s, exec_capf_suppressed hl (Nat.lt_of_not_ge hg), fun _ _ => ?_, fun _ _ => rfl, fun _ _ => ?_, fun _ _ => rfl,
      fun hne => absurd rfl hne⟩ <;> omega

/-- Settles O23: RDCLR leaves WIDTH 0, and only an accepted CAPF makes it anything else. -/
theorem secondReadReturnsZero : Obligations.SecondReadReturnsZero := by
  refine ⟨fun s t u l is hs hx hrun hn => ?_, fun t u l is _ hl h0 hrun hn => rdclr_responds_zero hl h0 hrun hn⟩
  obtain ⟨hl, ht⟩ := onLine_next hx
  refine rdclr_responds_zero ((exec_keeps hx).lineLegal hl) ?_ hrun hn
  rw [ht, record_emit, hs.record_setRecord hl]

/-- Settles O24: RISE is still 0, so the wrap guard passes. -/
theorem fallingEdgeWithoutRisingEdge : Obligations.FallingEdgeWithoutRisingEdge := by
  intro s t l is hs hl h0 hr hrun he
  exact exec_capf_measures_from_zero (runOps_inv hrun hs) ((runOps_keeps hrun).lineLegal hl) he
    (runOps_rise_zero hrun hr h0)

/-- Settles O25: nothing but a CAPR of the line or a CLRALL writes RISE, so the later CAPF finds the first one's. -/
theorem repeatedEdgesOfOneKind : Obligations.RepeatedEdgesOfOneKind := by
  refine ⟨fun s t u l is hs hl hx hrun he => ?_, fun s t u l is hs hl hx hrun hr hc he => ?_⟩
  · have hrun' := (runOps_cons hx).trans hrun
    have hu := runOps_inv hrun' hs
    have hlu := (runOps_keeps hrun').lineLegal hl
    exact ⟨_, exec_capr_enabled hlu he, by rw [hu.record_setRecord hlu]⟩
  · have hrun' := (runOps_cons hx).trans hrun
    have hu := runOps_inv hrun' hs
    have hlu := (runOps_keeps hrun').lineLegal hl
    have hrise : (u.record l).rise = (s.record l).rise := runOps_rise hrun' (by simpa using hr) (by simpa using hc)
    rw [← hrise]
    by_cases hg : guardPasses u.tb (u.record l).rise
    · obtain ⟨v, hx, -, hr⟩ := exec_capf_measures hu hlu ⟨he, hg⟩
      exact ⟨v, hx, fun _ => hr ▸ width_toNat hg, fun hlt => absurd hg hlt.not_ge⟩
    · exact ⟨u, exec_capf_suppressed hlu (Nat.lt_of_not_ge hg), fun h => absurd h hg, fun _ => rfl⟩

/-- Settles O26: one function of the record and TB says what an operation on a line leaves there. -/
theorem linesAreIndependent : Obligations.LinesAreIndependent := by
  refine ⟨fun s s' l i hi hs hs' hl hl' hr htb => ?_, fun i s t k k' hi h hk hk' =>
    (exec_writes_record h hi hk).unique (exec_writes_record h hi hk')⟩
  refine ⟨_, _, exec_of_actsOn hi hl, exec_of_actsOn hi hl', ?_, fun k hk => record_setRecord_ne s _ hk, rfl, _, rfl,
    by rw [hr]⟩
  calc
    (s.setRecord l (lineRecord s.tb (s.record l) i)).record l
    _ = lineRecord s.tb (s.record l) i := hs.record_setRecord hl _
    _ = lineRecord s'.tb (s'.record l) i := by rw [hr, lineRecord_congr _ hi htb]
    _ = (s'.setRecord l (lineRecord s'.tb (s'.record l) i)).record l := (hs'.record_setRecord hl' _).symm

/-- Settles O48, by what each operation of the two families did. -/
theorem familiesAreSeparate : Obligations.FamiliesAreSeparate := by
  intro i s t h
  refine ⟨fun hi => ?_, fun hw => ?_, fun hi => ?_⟩
  · cases exec_did h with
    | readCleared l => exact ⟨rfl, fun hn => absurd rfl (hn l)⟩
    | enabled | rose | riseIgnored | fell | fallIgnored | cleared | clearBegun | advanced => exact ⟨rfl, fun _ => rfl⟩
    | _ => simp at hi
  · rcases hw with ht | hst
    · exact ⟨.throttle, exec_writes_pwm (c := .throttle) h ht⟩
    · exact ⟨.steering, exec_writes_pwm (c := .steering) h hst⟩
  · cases exec_did h with
    | widthSet c | periodEnded c => cases c <;> rfl
    | _ => simp at hi

end Sys2Proof.Machine

/-! PROOFS. The statements of 41_pwm_output.md: what PWMSET and PWMPER write and what they leave alone (R99, R103, R107), and
which high times the periods before and after a change of the width have (R105, R106). -/

namespace Sys2Proof.Machine

variable {s t : State} {c : PwmChannel} {w : S32} {is : List Instr}

/-! ## The envelope (R28, R99) -/

/-- PWMSET of the width already held leaves the registers as they are, for the envelope takes that width in. -/
theorem EnvelopeHolds.widen_same {p : PwmRegs} (h : EnvelopeHolds p) : ⟨p.w, sMin p.lo p.w, sMax p.hi p.w⟩ = p := by
  rw [sMin_of_le h.1, sMax_of_ge h.2]

/-! ## One output period (R103) -/

/-- What PWMPER does: one pulse of the high time drawn, the channel's envelope started at its width, and nothing else but the
count of draws. -/
theorem exec_pwmper_ends_period (c : PwmChannel) (s : State) :
    ∃ t, exec (.pwmper c) s = .next t ∧
      t.events = s.events ++ [.pwmPulse c (highTime (s.pwm c) s.cfg.pwmPeriodUs s.draws)] ∧
      t.pwm c = ⟨(s.pwm c).w, (s.pwm c).w, (s.pwm c).w⟩ ∧ (∀ c', c' ≠ c → t.pwm c' = s.pwm c') ∧
      { t.setPwm c (s.pwm c) with events := s.events, draws := s.draws } = s := by
  refine ⟨_, exec_pwmper c s, by simp, by simp, fun c' hc => by simp [pwm_setPwm_ne s _ hc], ?_⟩
  cases c <;> rfl

/-! ## Steady state (R105) -/

/-- All of channel c's registers hold the width w, and it lies in 0..PWM_PERIOD_US. -/
structure SteadyAt (c : PwmChannel) (w : S32) (s : State) : Prop where
  regs : s.pwm c = ⟨w, w, w⟩
  nonneg : 0 ≤ w.toInt
  le_period : w.toInt ≤ s.cfg.pwmPeriodUs

/-- PWMPER starts the next envelope at the width, so a width in range is steady after it (R103). -/
theorem SteadyAt.of_pwmper (h : exec (.pwmper c) s = .next t) (h0 : 0 ≤ (s.pwm c).w.toInt)
    (h1 : (s.pwm c).w.toInt ≤ s.cfg.pwmPeriodUs) : SteadyAt c (s.pwm c).w t := by
  cases h
  exact ⟨by simp, h0, by simpa using h1⟩

/-- Only a PWMSET on the channel ends the steady state. -/
theorem SteadyAt.after_runOps (h : SteadyAt c w s) (hrun : runOps is s = .next t) (hset : ∀ v, .pwmset c v ∉ is) :
    SteadyAt c w t := by
  refine runOps_invariant hrun (fun i hi _ _ hu hx => ⟨?_, hu.nonneg, (exec_keeps hx).cfg ▸ hu.le_period⟩) h
  rcases exec_pwm hx c with hp | ⟨v, rfl, -⟩ | ⟨-, hp⟩
  · exact hp.trans hu.regs
  · exact absurd hi (hset v)
  · rw [hp, hu.regs]

/-- In steady state a period's high time is the width: the envelope leaves the draw no choice. -/
theorem SteadyAt.pulse (h : SteadyAt c w s) :
    ∃ t, exec (.pwmper c) s = .next t ∧ t.events = s.events ++ [.pwmPulse c w.toInt.toNat] := by
  have hh : highTime (s.pwm c) s.cfg.pwmPeriodUs s.draws = w.toInt.toNat := by
    rw [h.regs, ← highTime_steady s.draws h.nonneg h.le_period, Int.toNat_natCast]
  obtain ⟨t, hx, hev, -⟩ := exec_pwmper_ends_period c s
  exact ⟨t, hx, hh ▸ hev⟩

/-- Without a PWMSET and a PWMPER on the channel, its registers stay as they are (R98, R107). -/
theorem runOps_pwm (h : runOps is s = .next t) (hset : ∀ w, .pwmset c w ∉ is) (hper : .pwmper c ∉ is) :
    t.pwm c = s.pwm c := by
  refine runOps_invariant (P := fun u => u.pwm c = s.pwm c) h (fun i hi u v hu hx => ?_) rfl
  rcases exec_pwm hx c with hp | ⟨w, rfl, -⟩ | ⟨rfl, -⟩
  · exact hp.trans hu
  · exact absurd hi (hset w)
  · exact absurd hi hper

/-! ## The statements -/

/-- Settles O28: s32 minimum and maximum are those of the integers, and the envelope takes in the width it holds. -/
theorem pwmsetStoresWidth : Obligations.PwmsetStoresWidth := by
  refine ⟨fun _ => ⟨rfl, rfl⟩, fun s c w => ⟨_, exec_pwmset c w s, ?_, ?_, ?_, fun _ hc => pwm_setPwm_ne s _ hc, ?_, ?_⟩⟩
  · simp
  · simp [sMin_toInt]
  · simp [sMax_toInt]
  · simp
  · rintro henv rfl
    rw [henv.widen_same, setPwm_pwm]

/-- Settles O29: the high time is the draw of R103, and the next envelope is the width alone. -/
theorem pwmperEmitsOnePulse : Obligations.PwmperEmitsOnePulse := by
  refine ⟨rfl, rfl, fun s c ⟨hlo, hhi⟩ => ?_⟩
  obtain ⟨t, hx, hev, hregs, hother, hframe⟩ := exec_pwmper_ends_period c s
  refine ⟨t, _, hx, hev, ?_, by rw [hregs], by rw [hregs], by rw [hregs], hother, hframe⟩
  split
  next hrange => exact highTime_inRange _ hrange (hlo.trans hhi)
  next => exact highTime_le _ (hlo.trans hhi)

/-- Settles O30: the first PWMPER brings the steady state, and nothing in between ends it. -/
theorem steadyStatePulse : Obligations.SteadyStatePulse :=
  fun _ _ _ _ _ h0 h1 hper hrun hset => ((SteadyAt.of_pwmper hper h0 h1).after_runOps hrun hset).pulse

/-- Settles O31: the envelope of the period in progress is the old and the new width, and its end brings the steady state
of the new one. -/
theorem newWidthFromTheNextPeriodOn : Obligations.NewWidthFromTheNextPeriodOn := by
  intro s s1 s2 c old new is hold ho0 ho1 hn0 hn1 hset1 hrun hset hper
  have hcfg : s2.cfg = s.cfg := (runOps_keeps ((runOps_cons hset1).trans hrun)).cfg
  have hregs : s2.pwm c = ⟨new, sMin old new, sMax old new⟩ := by
    rw [runOps_pwm hrun hset hper]
    cases hset1
    simp [hold]
  have hw : (s2.pwm c).w = new := by rw [hregs]
  have hlo : (s2.pwm c).lo.toInt = min old.toInt new.toInt := by rw [hregs, sMin_toInt]
  have hhi : (s2.pwm c).hi.toInt = max old.toInt new.toInt := by rw [hregs, sMax_toInt]
  have hrange : widthsInRange (s2.pwm c) s2.cfg.pwmPeriodUs :=
    ⟨hlo ▸ le_min ho0 hn0, hhi ▸ hcfg ▸ max_le ho1 hn1⟩
  obtain ⟨hmin, hmax⟩ := highTime_inRange s2.draws hrange (hlo ▸ hhi ▸ min_le_max)
  obtain ⟨s3, hx, hev, -⟩ := exec_pwmper_ends_period c s2
  refine ⟨s3, _, hx, hev, hlo ▸ hmin, hhi ▸ hmax, fun is' s4 hrun' hset' => ?_⟩
  rw [← hw]
  exact steadyStatePulse s2 s3 s4 c is' (hw ▸ hn0) (hw ▸ hcfg ▸ hn1) hx hrun' hset'

/-- Settles O32: all that either operation reads is in the registers of its channel, the period and the count of draws. -/
theorem channelsAreIndependent : Obligations.ChannelsAreIndependent := by
  intro s s' c i hi hregs hperiod hdraws
  rcases hi with ⟨w, rfl⟩ | rfl
  · exact ⟨_, _, exec_pwmset c w s, exec_pwmset c w s', by simp [hregs], fun _ hc => pwm_setPwm_ne s _ hc, [], by simp⟩
  · obtain ⟨t, hx, hev, hp, hother, -⟩ := exec_pwmper_ends_period c s
    obtain ⟨t', hx', hev', hp', -⟩ := exec_pwmper_ends_period c s'
    rw [← hregs, ← hperiod, ← hdraws] at hev'
    exact ⟨t, t', hx, hx', by rw [hp, hp', hregs], hother, _, hev, hev'⟩

end Sys2Proof.Machine

/-! PROOFS. The statements of 42_led.md: the encoder and the slots of its patterns (R111, R122), how a status transition
comes to the descriptor, at once or field by field (R112 to R114, R127, R128), and what the scheduler's ticks write
(R115 to R121, R126). -/

namespace Sys2Proof.Machine

variable {s t : State} {i : Instr} {is : List Instr}

/-! ## What operations leave alone -/

theorem exec_keeps_phase (h : exec i s = .next t) (hi : i ≠ .ledtick) : t.phase = s.phase :=
  by_contra fun hw => hi (exec_writes_phase h hw)

theorem exec_keeps_ledRun (h : exec i s = .next t) (hi : i ≠ .ledstart) : t.ledRun = s.ledRun :=
  by_contra fun hw => hi (exec_writes_ledRun h hw)

theorem exec_keeps_ledOut (h : exec i s = .next t) (ht : i ≠ .ledtick) (hb : i ≠ .ledblank) : t.ledOut = s.ledOut :=
  by_contra fun hw => (exec_writes_ledOut h hw).elim ht hb

theorem exec_keeps_desc (h : exec i s = .next t) (hi : ∀ st, i ≠ .stset st) : t.desc = s.desc :=
  by_contra fun hw => (exec_writes_status_or_desc h (.inr hw)).elim hi

/-- No operation stops the scheduler (R120). -/
theorem exec_keeps_running (h : exec i s = .next t) (hr : s.ledRun = true) : t.ledRun = true := by
  by_cases hi : i = .ledstart
  · subst hi
    cases h
    rfl
  · exact (exec_keeps_ledRun h hi).trans hr

theorem runOps_keeps_running (h : runOps is s = .next t) (hr : s.ledRun = true) : t.ledRun = true :=
  runOps_invariant (P := fun u => u.ledRun = true) h (fun _ _ _ _ hu hx => exec_keeps_running hx hu) hr

theorem runOps_keeps_phase (h : runOps is s = .next t) (hi : .ledtick ∉ is) : t.phase = s.phase :=
  runOps_invariant (P := fun u => u.phase = s.phase) h
    (fun _ hj _ _ hu hx => (exec_keeps_phase hx (ne_of_mem_of_not_mem hj hi)).trans hu) rfl

theorem runOps_keeps_ledOut (h : runOps is s = .next t) (ht : .ledtick ∉ is) (hb : .ledblank ∉ is) :
    t.ledOut = s.ledOut :=
  runOps_invariant (P := fun u => u.ledOut = s.ledOut) h
    (fun _ hj _ _ hu hx =>
      (exec_keeps_ledOut hx (ne_of_mem_of_not_mem hj ht) (ne_of_mem_of_not_mem hj hb)).trans hu) rfl

theorem runOps_keeps_desc (h : runOps is s = .next t) (hi : ∀ st, .stset st ∉ is) : t.desc = s.desc :=
  runOps_invariant (P := fun u => u.desc = s.desc) h
    (fun _ hj _ _ hu hx => (exec_keeps_desc hx fun st => ne_of_mem_of_not_mem hj (hi st)).trans hu) rfl

/-! ## Ticks of the scheduler (R116, R117, R126) -/

/-- The event of a tick in time slot `slot` (R116). -/
def slotWrite (order : BitOrder) (d : Desc) (slot : BitVec 3) : OutEvent :=
  .ledWrite (slotColour order d slot).r (slotColour order d slot).g (slotColour order d slot).b

/-- A tick answers a next state, the scheduler running or not, and leaves STATUS, DESC and DESC_PENDING (R119). -/
theorem exec_ledtick_keeps_descriptor (s : State) :
    ∃ t, exec .ledtick s = .next t ∧ t.status = s.status ∧ t.desc = s.desc ∧ t.descPending = s.descPending := by
  obtain ⟨t, h⟩ := exec_answers (i := .ledtick) (s := s) rfl
  exact ⟨t, h, (exec_descriptor h).resolve_right nofun⟩

/-- Any number of ticks leaves STATUS and DESC (R119, R128). -/
theorem runOps_ticks_keep_descriptor (n : Nat) (s : State) :
    ∃ t, runOps (List.replicate n .ledtick) s = .next t ∧ t.status = s.status ∧ t.desc = s.desc := by
  induction n generalizing s with
  | zero => exact ⟨s, rfl, rfl, rfl⟩
  | succ n ih =>
    obtain ⟨u, hx, hst, hd, -⟩ := exec_ledtick_keeps_descriptor s
    obtain ⟨t, hrun, hst', hd'⟩ := ih u
    exact ⟨t, (runOps_cons hx).trans hrun, hst'.trans hst, hd'.trans hd⟩

/-- `n` ticks of the running scheduler write the `n` slots from PHASE on, one after the other, and advance PHASE by `n`
(R116). -/
theorem runOps_ticks_running (n : Nat) (hr : s.ledRun = true) :
    ∃ t, runOps (List.replicate n .ledtick) s = .next t ∧
      t.events = s.events ++
        (List.range n).map (fun k => slotWrite s.cfg.ledBitOrder s.desc (s.phase + BitVec.ofNat 3 k)) ∧
      t.phase = s.phase + BitVec.ofNat 3 n ∧ t.desc = s.desc := by
  induction n generalizing s with
  | zero => exact ⟨s, rfl, by simp, by simp, rfl⟩
  | succ n ih =>
    have hx := exec_ledtick_running hr
    obtain ⟨t, hrun, hev, hph, hd⟩ := ih (exec_keeps_running hx hr)
    have hslot (k : Nat) : s.phase + 1#3 + BitVec.ofNat 3 k = s.phase + BitVec.ofNat 3 (k + 1) := by
      rw [BitVec.add_assoc, Nat.add_comm k, BitVec.ofNat_add]
    refine ⟨t, (runOps_cons hx).trans hrun, ?_, hph.trans (hslot n), hd⟩
    rw [hev, List.range_succ_eq_map]
    simp [slotWrite, hslot]

/-! ## Status transitions (R112, R114, R127) -/

/-- In atomic mode a STSET leaves its status, and the encoder's descriptor if it was there before (R32, R112). -/
theorem exec_stset_describes (st : Status) (hm : s.cfg.ledDescMode = .atomic) (hd : s.desc = ledTable s.status) :
    ∃ t, exec (.stset st) s = .next t ∧ t.status = st ∧ t.desc = ledTable st := by
  by_cases hs : st = s.status
  · subst hs
    exact ⟨s, exec_stset_same s, rfl, hd⟩
  · exact ⟨_, exec_stset_atomic hs hm, rfl, rfl⟩

/-- With no STSET in progress the descriptor is the encoder's (R32). -/
theorem Inv.desc_of_settled (hs : Inv s) (hp : s.descPending = []) : s.desc = ledTable s.status := by
  obtain ⟨-, -, -, -, -, desc⟩ := inv_iff.mp hs
  exact descSound_nil.mp (hp ▸ desc)

/-- A micro-step of STSET touches DESC, DESC_PENDING and the count of draws only, whether a field is pending or not. -/
theorem descMicro_frame (s : State) :
    ∃ d ps, s.descMicro = { s with desc := d, descPending := ps, draws := s.draws + 1 } := by
  by_cases hp : s.descPending = []
  · exact ⟨_, _, by rw [State.descMicro, descMicroAt_none (by simp [hp])]; rfl⟩
  · obtain ⟨k, f, v, -, heq⟩ := descMicro_eq hp
    exact ⟨_, _, heq⟩

/-- The micro-steps of a STSET in progress, with nothing between them, bring DESC to the encoder's descriptor: each
keeps the descriptor sound, whichever field is drawn, and with nothing pending a sound one is the encoder's (R114). -/
theorem iterate_microStep_describing (n : Nat) (hn : s.descPending.length = n) (hc : ¬ clearing s s.descBy)
    (hd : DescSound s.cfg s.status s.desc s.descPending) :
    (fun u => microStep u s.descBy)^[n] s =
      { s with desc := ledTable s.status, descPending := [], draws := s.draws + n } := by
  induction n generalizing s with
  | zero =>
    have hp : s.descPending = [] := List.length_eq_zero_iff.mp hn
    rw [Function.iterate_zero_apply, ← descSound_nil.mp (hp ▸ hd), ← hp]
    rfl
  | succ n ih =>
    have hne : s.descPending ≠ [] := List.ne_nil_of_length_eq_add_one hn
    obtain ⟨k, f, v, hk, heq⟩ := descMicro_eq hne
    have hlen := (descMicro_pending hne).1
    have hend := ih (s := s.descMicro) (Nat.succ_injective (hlen.trans hn)) (heq ▸ hc) (heq ▸ hd.writeField hk)
    rw [Function.iterate_succ_apply, microStep_describing hc ⟨hne, rfl⟩]
    rw [heq] at hend ⊢
    simpa [State.countDraw, Nat.add_assoc, Nat.add_comm 1 n] using hend

/-- No micro-step touches STATUS. -/
theorem MicroDid.status_eq (h : MicroDid s t) : t.status = s.status := by
  cases h with
  | clearedPair | wroteField | idle => rfl

/-- An event that changes STATUS is a STSET of the status it leaves, or the reset (R127, R167). -/
theorem performEvent_status {e : Event} (h : performEvent e s = .next t) (hne : t.status ≠ s.status) :
    (∃ a w, e = .op a w ∧ decode s.cfg.maxChannels w = .instr (.stset t.status)) ∨
      (e = .reset ∧ t.status = .disconnected) := by
  rcases performEvent_next h with ⟨a, w, i, he, -, hd, hx⟩ | ⟨a, w, -, -, rfl⟩ | ⟨a, -, rfl⟩ | ⟨he, rfl⟩
  · rcases exec_descriptor hx with ⟨hst, -⟩ | ⟨st, rfl, rfl, -⟩
    · exact absurd hst hne
    · exact .inl ⟨a, w, he, hd⟩
  · exact absurd (microStep_did (s.hand (.op a w)) a).status_eq hne
  · exact absurd (microStep_did s a).status_eq hne
  · exact .inr ⟨he, rfl⟩

/-! ## The statements -/

/-- Settles O38: the field is the one at the position drawn, and in a set of fields it stands nowhere else; four
micro-steps write all four. -/
theorem uninterruptedTransitionEqualsAtomic : Obligations.UninterruptedTransitionEqualsAtomic := by
  refine ⟨fun s hs hne => ?_, fun s b st hm hst hc hb => ?_⟩
  · obtain ⟨k, f, v, hk, heq⟩ := descMicro_eq hne
    obtain ⟨hlt, hget⟩ := List.getElem?_eq_some_iff.mp hk
    rw [heq]
    refine ⟨f, v, List.mem_of_getElem? hk, ?_, fun f' hf => ?_, fun p => ?_, rfl⟩
    · simp [descField_setDescField]
    · simp [descField_setDescField, hf]
    · rw [← hget]
      exact mem_eraseIdx_of_nodup hs.descNodup.of_map hlt p
  · cases (exec_stset_perField hst hm).symm.trans hb
    exact iterate_microStep_describing
      (s := { s with status := st, descPending := descFields (ledTable st), descBy := s.issuer }) 4 rfl hc
      (.descFields hm st s.desc)

/-- Settles O41: eight is 0 modulo 8, so PHASE and all else that the next eight ticks show are what they were. -/
theorem eightTicksAreOnePattern : Obligations.EightTicksAreOnePattern := by
  intro s hr
  obtain ⟨t, hrun, hev, hph, hd⟩ := runOps_ticks_running 8 hr
  have hback : t.phase = s.phase := by simpa using hph
  have hr' := runOps_keeps_running hrun hr
  obtain ⟨u, hrun', hev', -⟩ := runOps_ticks_running 8 hr'
  rw [(runOps_keeps hrun).cfg, hd, hback] at hev'
  exact ⟨t, _, hrun, hev, rfl, hback, hd, hr', u, hrun', hev'⟩

/-- Settles O44: only a tick or a LEDBLANK writes LED_OUT, and the tick reads DESC, which only a STSET writes. -/
theorem statusShownAtNextTick : Obligations.StatusShownAtNextTick := by
  intro s t u st is hr hne hx hrun ht hb hst
  have hall : runOps (.stset st :: is) s = .next u := (runOps_cons hx).trans hrun
  have hph : u.phase = s.phase := runOps_keeps_phase hall (by simpa using ht)
  have htick := exec_ledtick_running (runOps_keeps_running hall hr)
  refine ⟨runOps_keeps_ledOut hall (by simpa using ht) (by simpa using hb), hph, _, htick, ?_, fun hm => ?_⟩
  · rw [writeLed_ledOut, (runOps_keeps hall).cfg, hph]
  · rw [runOps_keeps_desc hrun hst]
    cases (exec_stset_atomic hne hm).symm.trans hx
    rfl

/-- Settles O46: taking an event changes the model's notes only, and the event writes STATUS only as R127 says. -/
theorem onlyStsetChangesStatus : Obligations.OnlyStsetChangesStatus := by
  intro s t h hne
  obtain ⟨ib, n, h⟩ := step_performs h
  exact performEvent_status (s := { s with inbox := ib, draws := n }) h hne

/-- Settles O47: the descriptor is the encoder's before the ticks, and they leave it. -/
theorem ticksKeepDescriptor : Obligations.TicksKeepDescriptor := by
  refine ⟨fun s st n hs hm => ?_, fun s n hs hp => ?_⟩
  · obtain ⟨u, hx, hst, hd⟩ := exec_stset_describes st hm (hs.desc_of_settled (hs.descAtomic hm))
    obtain ⟨t, hrun, hst', hd'⟩ := runOps_ticks_keep_descriptor n u
    exact ⟨t, (runOps_cons hx).trans hrun, hd'.trans hd, hst'.trans hst⟩
  · obtain ⟨t, hrun, hst, hd⟩ := runOps_ticks_keep_descriptor n s
    exact ⟨t, hrun, hd.trans (hs.desc_of_settled hp), hst⟩

/-- Settles O34, row by row. -/
theorem encoderTable : Obligations.EncoderTable := ⟨rfl, rfl, rfl, rfl, rfl, rfl, rfl⟩

/-- Settles O35: the two cases of R112. -/
theorem statusTransitionAtomic : Obligations.StatusTransitionAtomic := by
  refine ⟨fun _ => rfl, fun s st hm => ?_, fun _ _ => ledTable_injective⟩
  by_cases hs : st = s.status
  · subst hs
    exact ⟨s, exec_stset_same s, fun hne => absurd rfl hne, fun _ => rfl, rfl⟩
  · exact ⟨_, exec_stset_atomic hs hm, fun _ => ⟨rfl, rfl⟩, fun heq => absurd heq hs, rfl⟩

/-- Settles O36: R113's case of STSET, which does not ask for the mode. -/
theorem sameStatusChangesNothing : Obligations.SameStatusChangesNothing := by
  rintro s _ rfl
  exact exec_stset_same s

/-- Settles O39: LED_OUT is the slot's colour, its pattern bit read in either order. -/
theorem tickWritesSlotColour : Obligations.TickWritesSlotColour := by
  refine ⟨rfl, fun s => exec_ledtick_stopped, fun s hr => ⟨_, exec_ledtick_running hr, ?_, rfl, ?_, rfl⟩⟩
  · rw [writeLed_ledOut, slotColour]
    cases s.cfg.ledBitOrder <;> rfl
  · exact BitVec.toNat_add ..

/-- Settles O40: the eight slots of each pattern and order, and the pattern of each status. -/
theorem slotsOfEachPattern : Obligations.SlotsOfEachPattern := by
  refine ⟨by decide, by decide, by decide, by decide, by decide, by decide, ?_, ?_, ?_⟩ <;> intro st <;>
    cases st <;> decide

/-- Settles O42: a scheduler already running is left as it is. -/
theorem ledstartStartsScheduler : Obligations.LedstartStartsScheduler := by
  refine ⟨rfl, fun s => ⟨_, exec_ledstart s, rfl, rfl, fun hr => ?_⟩⟩
  rw [← hr]

/-- Settles O43: the tick after LEDBLANK shows what it would have shown without it. -/
theorem ledblankWritesBlack : Obligations.LedblankWritesBlack :=
  ⟨rfl, fun s => ⟨_, exec_ledblank s, rfl, rfl, rfl, fun hr => ⟨_, exec_ledtick_running hr, rfl⟩⟩⟩

/-- Settles O45: PHASE is LEDTICK's and LED_RUN is LEDSTART's, and a tick leaves the descriptor. -/
theorem schedulerIndependentOfStatus : Obligations.SchedulerIndependentOfStatus := by
  refine ⟨fun s st => ?_, fun s => ?_, exec_ledtick_keeps_descriptor⟩
  · obtain ⟨t, hx⟩ := exec_answers (i := .stset st) (s := s) rfl
    exact ⟨t, hx, exec_keeps_phase hx nofun, exec_keeps_ledRun hx nofun⟩
  · obtain ⟨d, ps, heq⟩ := descMicro_frame s
    rw [heq]
    exact ⟨rfl, rfl⟩

end Sys2Proof.Machine

/-! PROOFS. The statements of 43_host_usage.md: what the command-intake duty makes of a line that parses (R132 to R134), and
what the telemetry duty does on signal loss (R140, R142). -/

namespace Sys2Proof.Machine

variable {c : Config} {line word : List Byte} {st : Status} {t s : S32} {v : Widths}

/-! ## Command intake (R132 to R134) -/

/-- The map from words to statuses, both ways: exact match is case-sensitive, and no other word has a status (R133). -/
theorem statusWord_eq_some_iff :
    statusWord word = some st ↔
      (word = "init".toList.map ascii ∧ st = .hostInit) ∨
      (word = "disarmed".toList.map ascii ∧ st = .hostDisarmed) ∨
      (word = "user".toList.map ascii ∧ st = .hostUserMode) ∨
      (word = "local".toList.map ascii ∧ st = .hostLocalMode) := by
  constructor
  · intro h
    unfold statusWord at h
    split_ifs at h with hinit hdisarmed huser hlocal <;> cases h
    · exact .inl ⟨hinit, rfl⟩
    · exact .inr (.inl ⟨hdisarmed, rfl⟩)
    · exact .inr (.inr (.inl ⟨huser, rfl⟩))
    · exact .inr (.inr (.inr ⟨hlocal, rfl⟩))
  · rintro (⟨rfl, rfl⟩ | ⟨rfl, rfl⟩ | ⟨rfl, rfl⟩ | ⟨rfl, rfl⟩) <;> decide

/-- A status word has its STSET issued (R132). -/
theorem statusWordOps_known (h : statusWord word = some st) : statusWordOps word = [.stset st] := by
  rw [statusWordOps, h]

/-- A word that is no status word has nothing issued (R134). -/
theorem statusWordOps_unknown (h : statusWord word = none) : statusWordOps word = [] := by
  rw [statusWordOps, h]

/-- A line that parses sets the command state, and both PWMSET come after what its word has issued (R132). -/
theorem commandDuty_parsed (cmd : HostCommand) (h : parseLine (line.take c.hostLineMax) = some (t, s, word)) :
    commandDuty c (some line) cmd =
      (⟨t, s⟩, statusWordOps word ++ [.pwmset .throttle t, .pwmset .steering s]) := by
  simp only [commandDuty, h]

/-- Settles O58: the two cases differ in what the word has issued before both PWMSET. -/
theorem parsedLineIssuesCommands : Obligations.ParsedLineIssuesCommands := by
  refine ⟨fun _ _ => statusWord_eq_some_iff, fun c line word cmd t s hp => ⟨fun st hw => ?_, fun hw => ?_⟩⟩
  · rw [commandDuty_parsed cmd hp, statusWordOps_known hw, List.singleton_append]
  · rw [commandDuty_parsed cmd hp, statusWordOps_unknown hw, List.nil_append]

/-! ## Signal loss (R140, R142) -/

/-- The report on signal loss does not depend on the other widths or the readings (R140, R144). -/
theorem telemetryReport_signalLoss (clock sensorLeft sensorRight : Nat) (h : v.throttle = 0) :
    telemetryReport c clock v sensorLeft sensorRight =
      (sentinelLine (timestamp c clock), .stset .rxError :: telemClearOps c) := if_pos h

/-- After the timestamp the sentinel line has the same bytes whatever the timestamp is (R142). -/
theorem sentinelLine_eq (ts : Nat) :
    sentinelLine ts = decimalText ts ++ ",-1,-1,-1,-1,-1,-1,-1\n".toList.map ascii :=
  List.append_assoc ..

/-- Settles O59: STSET rx-error comes first, whatever the clear variant adds after it. -/
theorem signalLossSendsSentinel : Obligations.SignalLossSendsSentinel := by
  intro c clock v sl sr hv
  rw [telemetryReport_signalLoss clock sl sr hv]
  exact ⟨sentinelLine_eq _, List.mem_cons_self⟩

end Sys2Proof.Machine

/-! PROOFS. The statement of 60_exceptions.md: no operation can fail once decoded (R149). -/

namespace Sys2Proof.Machine

/-- Settles O53: what the decoder accepts is well-formed, and a well-formed operation answers in every state. -/
theorem decodedOperationNeverFails : Obligations.DecodedOperationNeverFails := by
  intro s w i hd
  obtain ⟨t, hx⟩ := exec_answers (decode_wellFormed hd)
  exact ⟨t, hx, (performWord_instr hd).trans hx⟩

end Sys2Proof.Machine

/-! PROOFS. The statements of 70_reset_and_hazards.md: the values right after reset (R168), and that the external reset
brings them back and erases no event (R167). -/

namespace Sys2Proof.Machine

variable {c : Config} {s : State}

/-! ## The reset values (R168) -/

/-- The three registers of a channel are one draw (R26, R28). -/
theorem resetAt_pwm (c : Config) (n : Nat) (ch : PwmChannel) : ∃ k, (State.resetAt c n).pwm ch = resetPwm k := by
  cases ch with
  | throttle => exact ⟨n + 1, rfl⟩
  | steering => exact ⟨n + 2, rfl⟩

/-- No value of R168 depends on what the draws are. -/
theorem resetAt_values (c : Config) (n : Nat) : ResetValues c (State.resetAt c n) where
  unit := ⟨rfl, List.length_replicate⟩
  records l := by rw [resetAt_record]; exact ⟨rfl, rfl, rfl⟩
  pwm ch := by obtain ⟨k, hk⟩ := resetAt_pwm c n ch; rw [hk]; exact ⟨rfl, rfl⟩
  status := rfl
  desc := rfl
  phase := rfl
  ledRun := rfl
  settled := ⟨rfl, rfl⟩

/-- R168 says nothing of the events emitted and of what is handed over. -/
theorem ResetValues.withHistory (h : ResetValues c s) (emitted : List OutEvent) (handed : List Event) :
    ResetValues c (s.withHistory emitted handed) :=
  ⟨h.unit, h.records, h.pwm, h.status, h.desc, h.phase, h.ledRun, h.settled⟩

/-! ## The external reset (R167) -/

theorem externalReset_values (s : State) : ResetValues s.cfg s.externalReset :=
  (resetAt_values s.cfg s.draws).withHistory s.events s.inbox

@[simp] theorem externalReset_events (s : State) : s.externalReset.events = s.events := rfl

@[simp] theorem externalReset_draws (s : State) : s.externalReset.draws = s.draws + resetDraws := rfl

/-- The external reset, first in line, is performed with nothing else than its own event taken. -/
theorem step_of_reset {rest : List Event} (h : s.inbox = .reset :: rest) :
    step s = .next { s with inbox := rest }.externalReset := step_of_inbox h

/-! ## The statements -/

/-- Settles O55: R168's values at any parameters and any count of draws. -/
theorem stateAfterReset : Obligations.StateAfterReset :=
  ⟨resetAt_values unitConfig 0, resetAt_values⟩

/-- Settles O56: taking the event changes what is handed over only, and the reset draws from the count of draws on. -/
theorem externalResetRestoresResetState : Obligations.ExternalResetRestoresResetState := by
  intro s rest hin
  exact ⟨_, step_of_reset hin, externalReset_values { s with inbox := rest }, externalReset_events _, rfl, rfl, rfl, rfl,
    (externalReset_draws _).ge⟩

end Sys2Proof.Machine
